-- ==== Sys2Proof/Word.lean ====
section
/-! DEFINITION. The word, byte and bit-sequence types of 00_scope.md R7, R8 and R9. -/

namespace Sys2Proof

/-- A 32-bit register value or command word (R7 REG_WIDTH). -/
abbrev Word := BitVec 32

/-- An 8-bit symbol, field or stream byte (R7 SYMBOL_WIDTH). -/
abbrev Byte := BitVec 8

/-- A finite sequence of bits `c[0] c[1] ...`, `c[0]` first (R9). -/
abbrev Bits := List Bool

end Sys2Proof
end

