-- ==== Sys2Proof/Config.lean ====
section
/-! DEFINITION. The implementation parameters of 00_scope.md R7.

The two buffer capacities are OPEN: named parameters "that the model takes as an argument". They are plain data that
State carries and nothing changes, so a statement about every state is a statement about every capacity (log 5). -/

namespace Sys2Proof

/-- The OPEN capacities of R7, I14. -/
structure Config where
  /-- OUT_CAP_BYTES. -/
  outCapBytes : Nat
  /-- IN_CAP_BYTES. -/
  inCapBytes : Nat
  deriving DecidableEq, Repr

namespace Config

/-- MAX_ROWS of R7. -/
abbrev maxRows : Nat := 256

/-- MAX_CHUNK of R7: the most bits one W_BITS, R_PEEK, R_TAKE or T_CODE moves. -/
abbrev maxChunk : Nat := 32

/-- The bound R7 puts on both capacities. -/
abbrev maxCapBytes : Nat := 2 ^ 28

/-- OUT_CAP_BITS of R7. -/
abbrev outCapBits (c : Config) : Nat := 8 * c.outCapBytes

/-- "1 ≤ OUT_CAP_BYTES ≤ 2^28" and the same of IN_CAP_BYTES (R7). -/
def wf (c : Config) : Bool :=
  decide (1 ≤ c.outCapBytes) && decide (c.outCapBytes ≤ maxCapBytes) &&
  decide (1 ≤ c.inCapBytes) && decide (c.inCapBytes ≤ maxCapBytes)

/-- The capacities that State.reset carries. DESIGN CHOICE (log 5), unsafe only for a claim about State.reset itself:
the spec leaves both open, and the largest value it allows is named here. -/
def atReset : Config := ⟨2 ^ 28, 2 ^ 28⟩

end Config

end Sys2Proof
end

