-- ==== Sys2Proof/Machine/State.lean ====
section
/-! DEFINITION. The state of HCB as plain data (10_state.md R39), the ways a step can stop, and the state after reset
(R38). The registers that are lengths (WBITS, ILEN, TBLN, fill) are stored once, as the lists they count (R39). -/

namespace Sys2Proof.Machine

/-- One row of the table memory TBL (R30, R39). `fill` is the length of `code`: code bits at `fill` and above are 0
(R31) and are not stored. -/
structure Row where
  /-- The symbol. -/
  sym : Byte
  /-- The code length L. -/
  len : Byte
  /-- The code bits loaded so far, code[0] first. -/
  code : Bits
  deriving DecidableEq, Repr

/-- The eight host-visible registers (R20, R73). -/
inductive Reg where
  | cmd | arg | res | status | wbits | rbits | ilen | tbln
  deriving DecidableEq, Repr

/-- What the outside world does to HCB: the host's register accesses (20_memory.md R70) and the level of the reset
input (70_reset_and_hazards.md R280). Offsets and sizes are in bytes. -/
inductive HostEvent where
  /-- MemRead(off, size). -/
  | read (off size : Nat)
  /-- MemWrite(off, size, v). -/
  | write (off size : Nat) (v : Word)
  /-- `rst_n` takes this level: false is low, reset asserted. -/
  | rst (level : Bool)
  deriving DecidableEq, Repr

/-- The error codes 1 to 9 of 60_exceptions.md R251. -/
inductive HcbError where
  /-- E_LOOKUP_ENC. -/
  | lookupEnc
  /-- E_LOOKUP_DEC. -/
  | lookupDec
  /-- E_UNDERFLOW. -/
  | underflow
  /-- E_EMPTY. -/
  | empty
  /-- E_ILLEGAL. -/
  | illegal
  /-- E_OVERFLOW. -/
  | overflow
  /-- E_INCOMPLETE. -/
  | incomplete
  /-- E_FORMAT. -/
  | format
  /-- E_RANGE. -/
  | range
  deriving DecidableEq, Repr

/-- The machine. -/
structure State where
  /-- The capacities, fixed for the machine (R7; log 5). -/
  cfg : Config
  /-- ARG (R22). -/
  arg : Word
  /-- RES (R23). -/
  res : Word
  /-- STATUS.ERR (R25). -/
  err : BitVec 4
  /-- STATUS.ERR_OP (R25). -/
  errOp : Byte
  /-- OBUF up to WBITS: the writer's stream, bit 0 first (R35, R39). -/
  obuf : Bits
  /-- RBITS (R27). -/
  rbits : Nat
  /-- IBUF up to ILEN: the reader's stream, byte 0 first (R36, R39). -/
  ibuf : List Byte
  /-- TBL up to TBLN, row 0 first (R30, R39). -/
  tbl : List Row
  /-- The level of `rst_n`: false while reset is asserted (R280). -/
  rstN : Bool
  /-- The MODEL's own: the host events still to come, oldest first (log 1). -/
  inputs : List HostEvent
  /-- The MODEL's own: the words the host's reads have returned, newest first (log 3). -/
  responses : List Word
  deriving DecidableEq, Repr

/-- HCB has no fault: every error of R251 is a next state with STATUS.ERR set (R254), and nothing else stops it. No
meaning raises a fault, which is what the spec says (R250), so the empty type is neither safe nor unsafe. -/
inductive Fault where
  deriving DecidableEq, Repr

/-- The ways a step is refused. -/
inductive Refusal where
  /-- Raised by exec's arm of a command that has no meaning yet. Safe: nothing can be proved of it. -/
  | notModelled (mnemonic : String)
  /-- Raised by a host access that is not a whole 32-bit one (R71, I12). Safe: the spec gives it no meaning. -/
  | accessWidth
  /-- Raised by a host access at an offset that is no multiple of 4 (R71, I12). Safe: as above. -/
  | accessAlignment
  /-- Raised by a host access at offset 0x20 or above (R71, I12). Safe: as above. -/
  | accessOutsideWindow
  deriving DecidableEq, Repr

/-- The outcome of a step or a command. -/
abbrev Result := Host.Outcome State Fault Refusal

/-- The machine right after reset: the values of R38, `rst_n` released (log 7), no host event pending and none answered
(log 1, log 3). -/
def State.reset : State where
  cfg := Config.atReset
  arg := 0
  res := 0
  err := 0
  errOp := 0
  obuf := []
  rbits := 0
  ibuf := []
  tbl := []
  rstN := true
  inputs := []
  responses := []

end Sys2Proof.Machine
end

