-- ==== Sys2Proof/Machine/Flags.lean ====
section
/-! DEFINITION. The flags of HCB: the error codes of 60_exceptions.md R251, table completeness (10_state.md R33) and the
STATUS register (R25). -/

namespace Sys2Proof.Machine

/-- The code STATUS.ERR holds (R251). -/
def HcbError.code : HcbError → BitVec 4
  | .lookupEnc => 1
  | .lookupDec => 2
  | .underflow => 3
  | .empty => 4
  | .illegal => 5
  | .overflow => 6
  | .incomplete => 7
  | .format => 8
  | .range => 9

/-- `TBL[r].fill` (R30). -/
def Row.fill (r : Row) : Nat := r.code.length

/-- A row whose code is fully loaded (R33). -/
def Row.complete (r : Row) : Bool := r.fill == r.len.toNat

/-- STATUS.TCOMP: every row has fill = len, vacuously for an empty table (R33). -/
def State.complete (s : State) : Bool := s.tbl.all Row.complete

/-- The STATUS register: ERR [3:0], ERR_OP [15:8], TCOMP [16], zero elsewhere (R25). -/
def State.status (s : State) : Word :=
  (0 : BitVec 15) ++ BitVec.ofBool s.complete ++ s.errOp ++ (0 : BitVec 4) ++ s.err

end Sys2Proof.Machine
end

