-- ==== Sys2Proof/Machine/Ops.lean ====
section
/-! DEFINITION. The shared operations over registers, streams and table (00_scope.md R10, 20_memory.md R61 to R67), and
the two error operations: raising one (60_exceptions.md R254) and the return from the blocked state (R259). -/

namespace Sys2Proof.Machine

/-! ## Bit sequences and numbers -/

/-- `ceil8(k)`, the bytes that hold k bits (R8). -/
def ceil8 (k : Nat) : Nat := (k + 7) / 8

/-- The bits v[0] .. v[n−1], least significant first (R62). -/
def bitsOf {w : Nat} (n : Nat) (v : BitVec w) : Bits := (List.range n).map v.getLsbD

/-- `Σ c[j] << j`: the number whose bits these are, least significant first (R62). -/
def ofBits : Bits → Nat
  | [] => 0
  | b :: bs => b.toNat + 2 * ofBits bs

/-- Byte i of a register value, bits [8i+7:8i] (R70). -/
def wordByte (v : Word) (i : Nat) : Byte := v.extractLsb' (8 * i) 8

namespace State

/-! ## Register views -/

/-- WBITS (R26). -/
def wbits (s : State) : Nat := s.obuf.length

/-- ILEN (R28). -/
def ilen (s : State) : Nat := s.ibuf.length

/-- TBLN (R29). -/
def tbln (s : State) : Nat := s.tbl.length

/-! ## Register and storage updates -/

/-- ARG <- v. -/
def withArg (v : Word) (s : State) : State := { s with arg := v }

/-- RES <- v. -/
def withRes (v : Word) (s : State) : State := { s with res := v }

/-- Replace the writer's stream. -/
def withObuf (b : Bits) (s : State) : State := { s with obuf := b }

/-- RBITS <- p. -/
def withRbits (p : Nat) (s : State) : State := { s with rbits := p }

/-- Replace the reader's stream. -/
def withIbuf (b : List Byte) (s : State) : State := { s with ibuf := b }

/-- Replace the table. -/
def withTbl (t : List Row) (s : State) : State := { s with tbl := t }

/-- The host events still to come. -/
def withInputs (es : List HostEvent) (s : State) : State := { s with inputs := es }

/-- A read returns `v` to the host. -/
def respond (v : Word) (s : State) : State := { s with responses := v :: s.responses }

/-- `rst_n` takes a level. -/
def withRstN (level : Bool) (s : State) : State := { s with rstN := level }

/-! ## Errors and reset -/

/-- `raise E_X` in the command whose OP is `op`: STATUS.ERR and ERR_OP are written, every other piece of state keeps its
value (R254, R252, R258). -/
def raise (e : HcbError) (op : Byte) (s : State) : State := { s with err := e.code, errOp := op }

/-- Reset, by SRESET or by `rst_n`: every piece of HCB's state takes its value of R38. It is the only return from the
blocked state (R259). The capacities, the level of `rst_n` and the host's side are not HCB's state. -/
def resetRegs (s : State) : State :=
  { s with arg := 0, res := 0, err := 0, errOp := 0, obuf := [], rbits := 0, ibuf := [], tbl := [] }

/-! ## The writer's stream -/

/-- `OutBit(k)`: the stored bit below WBITS, 0 at and above (R63). -/
def outBit (s : State) (k : Nat) : Bool := s.obuf.getD k false

/-- Byte i of the packed stream (R61, R63, R135). -/
def outByte (s : State) (i : Nat) : Byte := BitVec.ofNat 8 (ofBits ((List.range 8).map fun b => s.outBit (8 * i + b)))

/-- `AppendBits(L, c)` (R64). -/
def appendBits (c : Bits) (s : State) : State := s.withObuf (s.obuf ++ c)

/-! ## The reader's stream -/

/-- `InBit(k)` (R66): bit k of the reader's stream, bit (k mod 8) of byte (k div 8). No command reads it at or above
8 × ILEN, where this gives 0. -/
def inBit (s : State) (k : Nat) : Bool := (s.ibuf.getD (k / 8) 0).getLsbD (k % 8)

/-- The n bits of the reader's stream from position p. -/
def inBits (s : State) (p n : Nat) : Bits := (List.range n).map fun j => s.inBit (p + j)

/-- `InRem`, the bits left to read (R67). -/
def inRem (s : State) : Nat := 8 * s.ilen - s.rbits

end State

/-! ## Checked accesses -/

/-- An append with its capacity check (R65): all of `c`, or E_OVERFLOW and nothing. -/
def appendChecked (op : Byte) (c : Bits) (s : State) : Result :=
  if s.wbits + c.length > s.cfg.outCapBits then .next (s.raise .overflow op) else .next (s.appendBits c)

/-- A read of n bits into RES that advances RBITS by `adv`, or E_UNDERFLOW on an under-read (R67). -/
def readChecked (op : Byte) (n adv : Nat) (s : State) : Result :=
  if n > s.inRem then .next (s.raise .underflow op)
  else .next ((s.withRes (BitVec.ofNat 32 (ofBits (s.inBits s.rbits n)))).withRbits (s.rbits + adv))

end Sys2Proof.Machine
end

