-- ==== Sys2Proof/Machine/Operands.lean ====
section
/-! DEFINITION. Operand assembly, every form of 30_encoding.md R92. No field is sign-extended, scaled or shifted. -/

namespace Sys2Proof.Machine

/-- N as a bit count or a code length, unsigned. -/
def count (n : Byte) : Nat := n.toNat

namespace State

/-- ARG[N−1:0] as a chunk, ARG[0] first; ARG[31:N] is ignored (W_BITS, T_CODE). -/
def argChunk (s : State) (n : Byte) : Bits := bitsOf (count n) s.arg

/-- ARG[7:0] as a byte; ARG[31:8] is ignored (W_INT8, R_PUTB). -/
def argByte (s : State) : Byte := s.arg.extractLsb' 0 8

/-- All of ARG as 32 bits, least significant first (W_INT32). -/
def argWordBits (s : State) : Bits := bitsOf 32 s.arg

/-- All of ARG, unsigned, as an index (T_RDROW, W_GETB). -/
def argIndex (s : State) : Nat := s.arg.toNat

end State

/-- `sym | len << 8 | fill << 16`, zero-extended: what T_RDROW gives of a row (R173). -/
def Row.packed (r : Row) : Word :=
  r.sym.setWidth 32 ||| (r.len.setWidth 32 <<< 8) ||| (BitVec.ofNat 32 r.fill <<< 16)

end Sys2Proof.Machine
end

