-- ==== Sys2Proof/Machine/Control.lean ====
section
/-! DEFINITION. The control commands of 45_control.md. -/

namespace Sys2Proof.Machine

/-- NOP (R210): nothing. -/
def execNop (s : State) : Result := .next s

/-- SRESET (R211): every piece of state to its reset value. -/
def execSreset (s : State) : Result := .next s.resetRegs

end Sys2Proof.Machine
end

