-- ==== Sys2Proof/Syntax.lean ====
section
/-! DEFINITION. The commands of 30_encoding.md R95, one constructor per row of the opcode map.

A constructor carries the command word's fields that R95 names as its operands: N (a bit count or a code length) and
S (a symbol). An operand in the register ARG is no field of the word (R94). -/

namespace Sys2Proof

/-- One command of R95. -/
inductive Instr where
  /-- NOP, OP 0x00 (R210). -/
  | nop
  /-- SRESET, OP 0x01 (R211). -/
  | sreset
  /-- T_CLR, OP 0x10 (R170). -/
  | tClr
  /-- T_ROW, OP 0x11: S is the symbol, N the code length (R171). -/
  | tRow (sym len : Byte)
  /-- T_CODE, OP 0x12: N bits of ARG (R172). -/
  | tCode (n : Byte)
  /-- T_RDROW, OP 0x13: ARG is a row index (R173). -/
  | tRdrow
  /-- W_TABLE, OP 0x14 (R174). -/
  | wTable
  /-- R_TABLE, OP 0x15 (R175). -/
  | rTable
  /-- W_CLR, OP 0x20 (R130). -/
  | wClr
  /-- W_BITS, OP 0x21: N bits of ARG (R131). -/
  | wBits (n : Byte)
  /-- W_INT8, OP 0x22: ARG[7:0] (R132). -/
  | wInt8
  /-- W_INT32, OP 0x23: all of ARG (R133). -/
  | wInt32
  /-- W_SYM, OP 0x24: S is the symbol (R190). -/
  | wSym (sym : Byte)
  /-- W_LEN, OP 0x25 (R134). -/
  | wLen
  /-- W_GETB, OP 0x26: ARG is a byte index (R135). -/
  | wGetb
  /-- R_CLR, OP 0x30 (R150). -/
  | rClr
  /-- R_PUTB, OP 0x31: ARG[7:0] (R151). -/
  | rPutb
  /-- R_PEEK, OP 0x32: N bits (R152). -/
  | rPeek (n : Byte)
  /-- R_TAKE, OP 0x33: N bits (R153). -/
  | rTake (n : Byte)
  /-- R_INT8, OP 0x34 (R154). -/
  | rInt8
  /-- R_INT32, OP 0x35 (R155). -/
  | rInt32
  /-- R_SYM, OP 0x36 (R200). -/
  | rSym
  deriving DecidableEq, Repr

end Sys2Proof
end

