-- ==== Sys2Proof/WellFormed.lean ====
section
/-! DEFINITION. Which commands have a legal word (30_encoding.md R93, R96). -/

namespace Sys2Proof

/-- A chunk count is legal up to MAX_CHUNK (R93). -/
def legalCount (n : Byte) : Bool := decide (n.toNat ≤ Config.maxChunk)

/-- The legal commands: a bit count above 32 is illegal for W_BITS, T_CODE, R_PEEK and R_TAKE, and every other operand
is legal at every value of its field (R93). T_ROW with N = 0 is a legal word that fails in its own rule (R171). -/
def Instr.wf : Instr → Bool
  | .tCode n => legalCount n
  | .wBits n => legalCount n
  | .rPeek n => legalCount n
  | .rTake n => legalCount n
  | .nop => true
  | .sreset => true
  | .tClr => true
  | .tRow _ _ => true
  | .tRdrow => true
  | .wTable => true
  | .rTable => true
  | .wClr => true
  | .wInt8 => true
  | .wInt32 => true
  | .wSym _ => true
  | .wLen => true
  | .wGetb => true
  | .rClr => true
  | .rPutb => true
  | .rInt8 => true
  | .rInt32 => true
  | .rSym => true

end Sys2Proof
end

