-- ==== Sys2Proof/Decode.lean ====
section
/-! DEFINITION. Command words: the fields of 30_encoding.md R91, the opcode map of R95, the decoder (total, rejecting by
name: R96) and the encoder. -/

namespace Sys2Proof

/-- OP, bits [7:0] (R91). -/
def opField (w : Word) : Byte := w.extractLsb' 0 8

/-- N, bits [15:8] (R91). -/
def nField (w : Word) : Byte := w.extractLsb' 8 8

/-- S, bits [23:16] (R91). -/
def sField (w : Word) : Byte := w.extractLsb' 16 8

/-- RSV, bits [31:24] (R91). -/
def rsvField (w : Word) : Byte := w.extractLsb' 24 8

/-- One row of the opcode map: a word `w` selects it when `(w & mask) = pattern` (R95). -/
structure OpRow where
  pattern : Word
  mask : Word
  /-- The command, from the word's fields N and S. -/
  build : Byte → Byte → Instr

/-- The selection test of R95. -/
def OpRow.selects (r : OpRow) (w : Word) : Bool := (w &&& r.mask) == r.pattern

/-- The control and table commands of R95. -/
def controlTableRows : List OpRow :=
  [⟨0x00000000, 0xFFFFFFFF, fun _ _ => .nop⟩,
   ⟨0x00000001, 0xFFFFFFFF, fun _ _ => .sreset⟩,
   ⟨0x00000010, 0xFFFFFFFF, fun _ _ => .tClr⟩,
   ⟨0x00000011, 0xFF0000FF, fun n s => .tRow s n⟩,
   ⟨0x00000012, 0xFFFF00FF, fun n _ => .tCode n⟩,
   ⟨0x00000013, 0xFFFFFFFF, fun _ _ => .tRdrow⟩,
   ⟨0x00000014, 0xFFFFFFFF, fun _ _ => .wTable⟩,
   ⟨0x00000015, 0xFFFFFFFF, fun _ _ => .rTable⟩]

/-- The writer and encode commands of R95. -/
def writerRows : List OpRow :=
  [⟨0x00000020, 0xFFFFFFFF, fun _ _ => .wClr⟩,
   ⟨0x00000021, 0xFFFF00FF, fun n _ => .wBits n⟩,
   ⟨0x00000022, 0xFFFFFFFF, fun _ _ => .wInt8⟩,
   ⟨0x00000023, 0xFFFFFFFF, fun _ _ => .wInt32⟩,
   ⟨0x00000024, 0xFF00FFFF, fun _ s => .wSym s⟩,
   ⟨0x00000025, 0xFFFFFFFF, fun _ _ => .wLen⟩,
   ⟨0x00000026, 0xFFFFFFFF, fun _ _ => .wGetb⟩]

/-- The reader and decode commands of R95. -/
def readerRows : List OpRow :=
  [⟨0x00000030, 0xFFFFFFFF, fun _ _ => .rClr⟩,
   ⟨0x00000031, 0xFFFFFFFF, fun _ _ => .rPutb⟩,
   ⟨0x00000032, 0xFFFF00FF, fun n _ => .rPeek n⟩,
   ⟨0x00000033, 0xFFFF00FF, fun n _ => .rTake n⟩,
   ⟨0x00000034, 0xFFFFFFFF, fun _ _ => .rInt8⟩,
   ⟨0x00000035, 0xFFFFFFFF, fun _ _ => .rInt32⟩,
   ⟨0x00000036, 0xFFFFFFFF, fun _ _ => .rSym⟩]

/-- The opcode map of R95, 22 rows. -/
def opcodeMap : List OpRow := controlTableRows ++ writerRows ++ readerRows

/-- Why a word is illegal: the three kinds R96 lists. Each raises E_ILLEGAL (R253), so the name is the model's own
(log 12) and changes nothing the machine does. -/
inductive DecodeError where
  /-- OP is in no row of R95. -/
  | unknownOp
  /-- OP is in R95 but an unused field is nonzero (R94). -/
  | unusedField
  /-- N > 32 for a chunk command (R93). -/
  | countTooLarge
  deriving DecidableEq, Repr

/-- The decoder of R253: the row the word selects, then the check of N. Total on all words (R96). -/
def decode (w : Word) : Except DecodeError Instr :=
  match opcodeMap.find? (fun r => r.selects w) with
  | some r =>
    if (r.build (nField w) (sField w)).wf then .ok (r.build (nField w) (sField w)) else .error .countTooLarge
  | none =>
    if opcodeMap.any (fun r => opField r.pattern == opField w) then .error .unusedField else .error .unknownOp

/-- The OP of a command (R95). It is also what a failing command leaves in STATUS.ERR_OP (R252). -/
def Instr.opcode : Instr → Byte
  | .nop => 0x00
  | .sreset => 0x01
  | .tClr => 0x10
  | .tRow _ _ => 0x11
  | .tCode _ => 0x12
  | .tRdrow => 0x13
  | .wTable => 0x14
  | .rTable => 0x15
  | .wClr => 0x20
  | .wBits _ => 0x21
  | .wInt8 => 0x22
  | .wInt32 => 0x23
  | .wSym _ => 0x24
  | .wLen => 0x25
  | .wGetb => 0x26
  | .rClr => 0x30
  | .rPutb => 0x31
  | .rPeek _ => 0x32
  | .rTake _ => 0x33
  | .rInt8 => 0x34
  | .rInt32 => 0x35
  | .rSym => 0x36

/-- The field N of a command's word: 0 where the command takes no N (R94). -/
def Instr.nOperand : Instr → Byte
  | .tRow _ len => len
  | .tCode n => n
  | .wBits n => n
  | .rPeek n => n
  | .rTake n => n
  | .nop => 0
  | .sreset => 0
  | .tClr => 0
  | .tRdrow => 0
  | .wTable => 0
  | .rTable => 0
  | .wClr => 0
  | .wInt8 => 0
  | .wInt32 => 0
  | .wSym _ => 0
  | .wLen => 0
  | .wGetb => 0
  | .rClr => 0
  | .rPutb => 0
  | .rInt8 => 0
  | .rInt32 => 0
  | .rSym => 0

/-- The field S of a command's word: 0 where the command takes no S (R94). -/
def Instr.sOperand : Instr → Byte
  | .tRow sym _ => sym
  | .wSym sym => sym
  | .tCode _ => 0
  | .wBits _ => 0
  | .rPeek _ => 0
  | .rTake _ => 0
  | .nop => 0
  | .sreset => 0
  | .tClr => 0
  | .tRdrow => 0
  | .wTable => 0
  | .rTable => 0
  | .wClr => 0
  | .wInt8 => 0
  | .wInt32 => 0
  | .wLen => 0
  | .wGetb => 0
  | .rClr => 0
  | .rPutb => 0
  | .rInt8 => 0
  | .rInt32 => 0
  | .rSym => 0

/-- The command word `00000000 SSSSSSSS NNNNNNNN OOOOOOOO` of R91, with RSV = 0. -/
def encode (i : Instr) : Word := (0 : Byte) ++ i.sOperand ++ i.nOperand ++ i.opcode

/-- The host's question to the decoder: the command of an `nbits`-bit table word `w`. Every command word has 32 bits
(R90), and bits above `nbits` are 0. -/
def decodeTableWord (nbits w : Nat) : Option Instr :=
  if nbits ≤ 32 ∧ w < 2 ^ nbits then
    match decode (BitVec.ofNat 32 w) with
    | .ok i => some i
    | .error _ => none
  else none

end Sys2Proof
end

