-- ==== Sys2Proof/Machine/DecodeSym.lean ====
section
/-! DEFINITION. The decode command of 44_decode.md. -/

namespace Sys2Proof.Machine

/-- The scan of R200 in stored row order: the first row whose code equals the next bits. `short` says whether a row
before was longer than the bits that remain. -/
def State.scan (s : State) : List Row → Bool → Except HcbError Row
  | [], short => .error (if short then .underflow else .lookupDec)
  | r :: rs, short =>
    if r.len.toNat > s.inRem then s.scan rs true
    else if s.inBits s.rbits r.len.toNat = r.code then .ok r
    else s.scan rs short

/-- R_SYM (R200, R201): decode one symbol. -/
def execRSym (s : State) : Result :=
  if !s.complete then .next (s.raise .incomplete Instr.rSym.opcode)
  else
    match s.scan s.tbl false with
    | .error e => .next (s.raise e Instr.rSym.opcode)
    | .ok r => .next ((s.withRbits (s.rbits + r.len.toNat)).withRes (r.sym.setWidth 32))

end Sys2Proof.Machine
end

