-- ==== Sys2Proof/Machine/Encode.lean ====
section
/-! DEFINITION. The encode command of 43_encode.md. -/

namespace Sys2Proof.Machine

/-- The least-index row with a symbol (R191). -/
def State.rowOf (s : State) (sym : Byte) : Option Row := s.tbl.find? fun r => r.sym == sym

/-- W_SYM (R190): append the code of symbol S. -/
def execWSym (sym : Byte) (s : State) : Result :=
  if !s.complete then .next (s.raise .incomplete (Instr.wSym sym).opcode)
  else
    match s.rowOf sym with
    | none => .next (s.raise .lookupEnc (Instr.wSym sym).opcode)
    | some r => appendChecked (Instr.wSym sym).opcode r.code s

end Sys2Proof.Machine
end

