-- ==== Sys2Proof/Machine/Reader.lean ====
section
/-! DEFINITION. The BitStream reader commands of 41_bitstream_reader.md. -/

namespace Sys2Proof.Machine

/-- R_CLR (R150): ILEN <- 0 and RBITS <- 0. -/
def execRClr (s : State) : Result := .next ((s.withIbuf []).withRbits 0)

/-- R_PUTB (R151): append ARG[7:0] to the reader's stream. -/
def execRPutb (s : State) : Result :=
  if s.ilen = s.cfg.inCapBytes then .next (s.raise .overflow Instr.rPutb.opcode)
  else .next (s.withIbuf (s.ibuf ++ [s.argByte]))

/-- R_PEEK (R152): N bits, not consumed. -/
def execRPeek (n : Byte) (s : State) : Result := readChecked (Instr.rPeek n).opcode (count n) 0 s

/-- R_TAKE (R153): N bits, consumed. -/
def execRTake (n : Byte) (s : State) : Result := readChecked (Instr.rTake n).opcode (count n) (count n) s

/-- R_INT8 (R154): 8 bits, consumed, zero-extended. -/
def execRInt8 (s : State) : Result := readChecked Instr.rInt8.opcode 8 8 s

/-- R_INT32 (R155): 32 bits, consumed. -/
def execRInt32 (s : State) : Result := readChecked Instr.rInt32.opcode 32 32 s

end Sys2Proof.Machine
end

