-- ==== Sys2Proof/Machine/Table.lean ====
section
/-! DEFINITION. The table memory and TableCodec commands of 42_table.md. -/

namespace Sys2Proof.Machine

/-- T_CLR (R170): TBLN <- 0. -/
def execTClr (s : State) : Result := .next (s.withTbl [])

/-- T_ROW (R171): append a row with symbol S, length N and no code bits. -/
def execTRow (sym len : Byte) (s : State) : Result :=
  if len = 0 then .next (s.raise .format (Instr.tRow sym len).opcode)
  else if s.tbln = Config.maxRows then .next (s.raise .overflow (Instr.tRow sym len).opcode)
  else .next (s.withTbl (s.tbl ++ [⟨sym, len, []⟩]))

/-- T_CODE (R172): append N code bits to the last row. -/
def execTCode (n : Byte) (s : State) : Result :=
  match s.tbl.getLast? with
  | none => .next (s.raise .range (Instr.tCode n).opcode)
  | some r =>
    if r.fill + count n > r.len.toNat then .next (s.raise .overflow (Instr.tCode n).opcode)
    else .next (s.withTbl (s.tbl.dropLast ++ [{ r with code := r.code ++ s.argChunk n }]))

/-- T_RDROW (R173): a row's symbol, length and fill count. -/
def execTRdrow (s : State) : Result :=
  match s.tbl[s.argIndex]? with
  | none => .next (s.raise .range Instr.tRdrow.opcode)
  | some r => .next (s.withRes r.packed)

/-- A serialized row: symbol, codeBitLength, code (R104). -/
def rowBits (r : Row) : Bits := bitsOf 8 r.sym ++ bitsOf 8 r.len ++ r.code

/-- A serialized table: TBLN − 1, then the rows in order (R103, R104, R174). -/
def tableBits (t : List Row) : Bits := bitsOf 8 (BitVec.ofNat 8 (t.length - 1)) ++ t.flatMap rowBits

/-- W_TABLE (R174): append the serialized table. -/
def execWTable (s : State) : Result :=
  if s.tbl = [] then .next (s.raise .empty Instr.wTable.opcode)
  else if !s.complete then .next (s.raise .incomplete Instr.wTable.opcode)
  else appendChecked Instr.wTable.opcode (tableBits s.tbl) s

/-- `get(k)` of R175 at position p: k bits as a number, or nothing when the stream ends before them. -/
def State.getField (s : State) (p k : Nat) : Option Nat :=
  if p + k > 8 * s.ilen then none else some (ofBits (s.inBits p k))

/-- One row of R175 at position p: the row and the position after it, or the first error in field order. -/
def State.readRow (s : State) (p : Nat) : Except HcbError (Row × Nat) :=
  match s.getField p 8 with
  | none => .error .underflow
  | some sym =>
    match s.getField (p + 8) 8 with
    | none => .error .underflow
    | some len =>
      if len = 0 then .error .format
      else if p + 16 + len > 8 * s.ilen then .error .underflow
      else .ok (⟨BitVec.ofNat 8 sym, BitVec.ofNat 8 len, s.inBits (p + 16) len⟩, p + 16 + len)

/-- The first `k` rows of R175 from position p. -/
def State.readRows (s : State) : Nat → Nat → Except HcbError (List Row × Nat)
  | 0, p => .ok ([], p)
  | k + 1, p =>
    match s.readRow p with
    | .error e => .error e
    | .ok (r, q) =>
      match s.readRows k q with
      | .error e => .error e
      | .ok (rs, z) => .ok (r :: rs, z)

/-- The whole table of R175 at position p: the count byte, then count + 1 rows. -/
def State.readTable (s : State) (p : Nat) : Except HcbError (List Row × Nat) :=
  match s.getField p 8 with
  | none => .error .underflow
  | some c => s.readRows (c + 1) (p + 8)

/-- R_TABLE (R175): replace the table by the one in the reader's stream, all or nothing. -/
def execRTable (s : State) : Result :=
  match s.readTable s.rbits with
  | .error e => .next (s.raise e Instr.rTable.opcode)
  | .ok (rows, p) => .next (((s.withTbl rows).withRbits p).withRes (BitVec.ofNat 32 rows.length))

end Sys2Proof.Machine
end

