-- ==== Sys2Proof/Machine/Writer.lean ====
section
/-! DEFINITION. The BitStream writer commands of 40_bitstream_writer.md. -/

namespace Sys2Proof.Machine

/-- W_CLR (R130): WBITS <- 0. -/
def execWClr (s : State) : Result := .next (s.withObuf [])

/-- W_BITS (R131): append N bits of ARG. -/
def execWBits (n : Byte) (s : State) : Result := appendChecked (Instr.wBits n).opcode (s.argChunk n) s

/-- W_INT8 (R132): append the 8 bits of ARG[7:0]. -/
def execWInt8 (s : State) : Result := appendChecked Instr.wInt8.opcode (bitsOf 8 s.argByte) s

/-- W_INT32 (R133): append the 32 bits of ARG. -/
def execWInt32 (s : State) : Result := appendChecked Instr.wInt32.opcode s.argWordBits s

/-- W_LEN (R134): the packed length in bytes. -/
def execWLen (s : State) : Result := .next (s.withRes (BitVec.ofNat 32 (ceil8 s.wbits)))

/-- W_GETB (R135): one byte of the packed stream. -/
def execWGetb (s : State) : Result :=
  if s.argIndex ≥ ceil8 s.wbits then .next (s.raise .range Instr.wGetb.opcode)
  else .next (s.withRes ((s.outByte s.argIndex).setWidth 32))

end Sys2Proof.Machine
end

