-- ==== Sys2Proof/Machine/Dispatch.lean ====
section
/-! DEFINITION. One arm per command: "perform row.rule" of 60_exceptions.md R253. -/

namespace Sys2Proof.Machine

def exec (i : Instr) (s : State) : Host.Outcome State Fault Refusal :=
  match i with
  | .nop => Sys2Proof.Machine.execNop s
  | .sreset => Sys2Proof.Machine.execSreset s
  | .tClr => Sys2Proof.Machine.execTClr s
  | .tRow sym len => Sys2Proof.Machine.execTRow sym len s
  | .tCode n => Sys2Proof.Machine.execTCode n s
  | .tRdrow => Sys2Proof.Machine.execTRdrow s
  | .wTable => Sys2Proof.Machine.execWTable s
  | .rTable => Sys2Proof.Machine.execRTable s
  | .wClr => Sys2Proof.Machine.execWClr s
  | .wBits n => Sys2Proof.Machine.execWBits n s
  | .wInt8 => Sys2Proof.Machine.execWInt8 s
  | .wInt32 => Sys2Proof.Machine.execWInt32 s
  | .wSym sym => Sys2Proof.Machine.execWSym sym s
  | .wLen => Sys2Proof.Machine.execWLen s
  | .wGetb => Sys2Proof.Machine.execWGetb s
  | .rClr => Sys2Proof.Machine.execRClr s
  | .rPutb => Sys2Proof.Machine.execRPutb s
  | .rPeek n => Sys2Proof.Machine.execRPeek n s
  | .rTake n => Sys2Proof.Machine.execRTake n s
  | .rInt8 => Sys2Proof.Machine.execRInt8 s
  | .rInt32 => Sys2Proof.Machine.execRInt32 s
  | .rSym => Sys2Proof.Machine.execRSym s

end Sys2Proof.Machine
end

