-- ==== Sys2Proof/Machine/Command.lean ====
section
/-! DEFINITION. The dispatch of a CMD write (60_exceptions.md R253) and the blocked state (R255). -/

namespace Sys2Proof.Machine

/-- The word of SRESET, which alone leaves the blocked state (R211, R253). -/
def sresetWord : Word := 0x00000001

/-- The word of NOP (R210, R253). -/
def nopWord : Word := 0x00000000

/-- A CMD write while blocked (R255): SRESET and NOP execute, every other word is ignored. -/
def blockedWrite (w : Word) (s : State) : Result :=
  if w = sresetWord then exec .sreset s
  else if w = nopWord then exec .nop s
  else .next s

/-- A CMD write while not blocked (R253): the word's command, or E_ILLEGAL with ERR_OP = w[7:0]. -/
def commandWrite (w : Word) (s : State) : Result :=
  match decode w with
  | .ok i => exec i s
  | .error _ => .next (s.raise .illegal (opField w))

/-- Dispatch of a CMD write (R253). -/
def dispatchWord (w : Word) (s : State) : Result :=
  if s.err = 0 then commandWrite w s else blockedWrite w s

end Sys2Proof.Machine
end

