-- ==== Sys2Proof/Machine/HostPort.lean ====
section
/-! DEFINITION. The host's side of HCB: the register map (20_memory.md R73), register accesses (R70 to R72) and the reset
input (70_reset_and_hazards.md R280). -/

namespace Sys2Proof.Machine

/-- The byte offset of a register (R73). -/
def Reg.offset : Reg → Nat
  | .cmd => 0x00
  | .arg => 0x04
  | .res => 0x08
  | .status => 0x0C
  | .wbits => 0x10
  | .rbits => 0x14
  | .ilen => 0x18
  | .tbln => 0x1C

/-- The registers in the order of R73: register number i is at offset 4 i. -/
def registerMap : List Reg := [.cmd, .arg, .res, .status, .wbits, .rbits, .ilen, .tbln]

/-- The register a host access reaches, or why the access has no meaning (R70, R71). Which reason is named when several
hold is the model's own (log 8). -/
def accessReg (off size : Nat) : Except Refusal Reg :=
  if size ≠ 4 then .error .accessWidth
  else if off % 4 ≠ 0 then .error .accessAlignment
  else
    match registerMap[off / 4]? with
    | some r => .ok r
    | none => .error .accessOutsideWindow

/-- The value of a register (R21 to R29). -/
def regValue : Reg → State → Word
  | .cmd, _ => 0
  | .arg, s => s.arg
  | .res, s => s.res
  | .status, s => s.status
  | .wbits, s => BitVec.ofNat 32 s.wbits
  | .rbits, s => BitVec.ofNat 32 s.rbits
  | .ilen, s => BitVec.ofNat 32 s.ilen
  | .tbln, s => BitVec.ofNat 32 s.tbln

/-- What a read of a register returns: its value, or 0 while `rst_n` is asserted (R72, R280). -/
def readReg (r : Reg) (s : State) : Word := if s.rstN then regValue r s else 0

/-- A write to a register (R72): CMD executes, ARG is set, the others ignore it; while `rst_n` is asserted nothing
happens (R280). -/
def writeReg (r : Reg) (v : Word) (s : State) : Result :=
  if s.rstN then
    match r with
    | .cmd => dispatchWord v s
    | .arg => .next (s.withArg v)
    | .res => .next s
    | .status => .next s
    | .wbits => .next s
    | .rbits => .next s
    | .ilen => .next s
    | .tbln => .next s
  else .next s

/-- `rst_n` takes a level; low is reset, which sets the values of R38 (R280). -/
def setRstN (level : Bool) (s : State) : State :=
  if level then s.withRstN true else s.resetRegs.withRstN false

/-- One host event (R70, R280). -/
def hostEvent (e : HostEvent) (s : State) : Result :=
  match e with
  | .read off size =>
    match accessReg off size with
    | .error r => .refused r
    | .ok r => .next (s.respond (readReg r s))
  | .write off size v =>
    match accessReg off size with
    | .error r => .refused r
    | .ok r => writeReg r v s
  | .rst level => .next (setRstN level s)

/-- The host's write of a command word, `MemWrite(0x00, 4, w)` (R98). -/
def cmdEvent (w : Word) : HostEvent := .write Reg.cmd.offset 4 w

/-- The host's write of ARG, `MemWrite(0x04, 4, v)` (R98). -/
def argEvent (v : Word) : HostEvent := .write Reg.arg.offset 4 v

/-- The host's read of a register, `MemRead(offset of REG, 4)` (R98). -/
def readEvent (r : Reg) : HostEvent := .read r.offset 4

end Sys2Proof.Machine
end

