-- ==== Sys2Proof/Machine/Step.lean ====
section
/-! DEFINITION. One step: the oldest host event (20_memory.md R75), or idling when there is none (60_exceptions.md R267). -/

namespace Sys2Proof.Machine

/-- One step of the machine. HCB fetches nothing (10_state.md R24): a command arrives as the host's write of CMD, so the
step takes the oldest event of `inputs` and performs it. With none pending HCB is idle and keeps all state (log 2). -/
def step (s : State) : Host.Outcome State Fault Refusal :=
  match s.inputs with
  | [] => .next s
  | e :: es => hostEvent e (s.withInputs es)

/-- Put the host's write of the command word `w` before every pending event, with `rst_n` released, so that the very next
step performs it (log 4). -/
def State.withFetchWord (s : State) (nbits w : Nat) : State :=
  (s.withRstN true).withInputs (cmdEvent (BitVec.ofNat 32 (w % 2 ^ nbits)) :: s.inputs)

end Sys2Proof.Machine
end

