-- ==== Sys2Proof/Machine/Assembler.lean ====
section
/-! DEFINITION. The host's assembler: lines and pseudo-instructions of 30_encoding.md R98 and R99, as host events and as
text. It is host software and changes nothing HCB does (D6). -/

namespace Sys2Proof.Machine

/-- One assembler line of R98. -/
inductive Line where
  /-- A command; `arg` is its `<arg>` operand where the mnemonic takes one. -/
  | cmd (i : Instr) (arg : Option Word)
  /-- `read <REG>`. -/
  | readReg (r : Reg)
  /-- `write ARG, <v>`. -/
  | writeArg (v : Word)
  deriving DecidableEq, Repr

/-- The host accesses of a line, in order (R98): ARG first where there is an operand for it, then the command word. -/
def Line.events : Line → List HostEvent
  | .cmd i (some a) => [argEvent a, cmdEvent (encode i)]
  | .cmd i none => [cmdEvent (encode i)]
  | .readReg r => [readEvent r]
  | .writeArg v => [argEvent v]

/-- The host accesses of a program, in order. -/
def programEvents (p : List Line) : List HostEvent := p.flatMap Line.events

/-! ## Pseudo-instructions (R99) -/

/-- A bit string in chunks of 32 bits and a last shorter one if bits remain; `fuel` bounds the number of chunks. -/
def chunks : Nat → Bits → List Bits
  | 0, _ => []
  | fuel + 1, b =>
    if b = [] then [] else b.take Config.maxChunk :: chunks fuel (b.drop Config.maxChunk)

/-- The chunk commands of a bit string: N is the chunk's length and ARG its bits, the first in ARG[0]. -/
def chunkLines (mk : Byte → Instr) (b : Bits) : List Line :=
  (chunks b.length b).map fun c => .cmd (mk (BitVec.ofNat 8 c.length)) (some (BitVec.ofNat 32 (ofBits c)))

/-- `w_code "<bits>"`. -/
def wCode (b : Bits) : List Line := chunkLines .wBits b

/-- `t_load <sym>, "<bits>"`, for 1 to 255 bits. -/
def tLoad (sym : Byte) (b : Bits) : List Line :=
  .cmd (.tRow sym (BitVec.ofNat 8 b.length)) none :: chunkLines .tCode b

/-- `w_bytes b0, ..., bk`. -/
def wBytes (bs : List Byte) : List Line := bs.map fun b => .cmd .wInt8 (some (b.setWidth 32))

/-- `r_load b0, ..., bk`. -/
def rLoad (bs : List Byte) : List Line := bs.map fun b => .cmd .rPutb (some (b.setWidth 32))

/-- `w_hdr <count>`. -/
def wHdr (n : Word) : List Line := [.cmd .wInt32 (some n), .cmd .wTable none]

/-! ## Text (R98) -/

/-- A piece of a line of text. -/
inductive Tok where
  | word (cs : List Char)
  | char (c : Char)
  | comma
  deriving DecidableEq, Repr

/-- An operand of a line of text. -/
inductive Operand where
  | num (n : Nat)
  | bits (b : Bits)
  | name (cs : List Char)
  deriving DecidableEq, Repr

/-- End the word read so far, its characters in reverse. -/
def endWord (acc : List Char) (ts : List Tok) : List Tok := if acc = [] then ts else .word acc.reverse :: ts

/-- Split a line at blanks and commas and end it at `;`; a character between single quotes is one piece (log 16). -/
def tokens (acc : List Char) : List Char → List Tok
  | [] => endWord acc []
  | '\'' :: c :: '\'' :: cs => endWord acc (.char c :: tokens [] cs)
  | c :: cs =>
    if c = ';' then endWord acc []
    else if c = ' ' ∨ c = '\t' then endWord acc (tokens [] cs)
    else if c = ',' then endWord acc (.comma :: tokens [] cs)
    else tokens (c :: acc) cs

/-- A digit's value in a base up to 16. -/
def digitOf (base : Nat) (c : Char) : Option Nat :=
  let v := if '0' ≤ c ∧ c ≤ '9' then c.toNat - '0'.toNat
    else if 'a' ≤ c ∧ c ≤ 'f' then c.toNat - 'a'.toNat + 10
    else if 'A' ≤ c ∧ c ≤ 'F' then c.toNat - 'A'.toNat + 10
    else base
  if v < base then some v else none

/-- The number digits write, most significant first, after a prefix worth `acc`. -/
def digits (base acc : Nat) : List Char → Option Nat
  | [] => some acc
  | c :: cs =>
    match digitOf base c with
    | some d => digits base (acc * base + d) cs
    | none => none

/-- A decimal number, or a hexadecimal one with `0x`. -/
def numberOf : List Char → Option Nat
  | '0' :: 'x' :: c :: cs => digits 16 0 (c :: cs)
  | c :: cs => digits 10 0 (c :: cs)
  | [] => none

/-- The bits of a quoted bit string, after its opening quote. -/
def bitChars : List Char → Option Bits
  | ['"'] => some []
  | '0' :: cs => (bitChars cs).map (false :: ·)
  | '1' :: cs => (bitChars cs).map (true :: ·)
  | _ => none

/-- The operand a piece stands for. A quoted character is its ASCII byte (R98, K2; log 16). -/
def Tok.operand : Tok → Option Operand
  | .char c => if c.toNat < 128 then some (.num c.toNat) else none
  | .word ('"' :: cs) => (bitChars cs).map .bits
  | .word cs =>
    match numberOf cs with
    | some n => some (.num n)
    | none => some (.name cs)
  | .comma => none

/-- Operands separated by commas. -/
def operandsFrom : List Tok → Option (List Operand)
  | [] => none
  | [t] => t.operand.map ([·])
  | t :: .comma :: ts =>
    match t.operand, operandsFrom ts with
    | some o, some os => some (o :: os)
    | _, _ => none
  | _ :: _ :: _ => none

/-- The operand list after a mnemonic, empty or not. -/
def operandsOf (ts : List Tok) : Option (List Operand) := if ts = [] then some [] else operandsFrom ts

/-- A number that fits a byte field. -/
def byteOf (n : Nat) : Option Byte := if n < 2 ^ 8 then some (BitVec.ofNat 8 n) else none

/-- A number that fits a register. -/
def wordOf (n : Nat) : Option Word := if n < 2 ^ 32 then some (BitVec.ofNat 32 n) else none

/-- Operands that are all bytes, at least one. -/
def bytesOf : List Operand → Option (List Byte)
  | [.num n] => (byteOf n).map ([·])
  | .num n :: os =>
    match byteOf n, bytesOf os with
    | some b, some bs => some (b :: bs)
    | _, _ => none
  | _ => none

/-- What a mnemonic's operands are (R98, R99). -/
inductive Form where
  /-- No operand. -/
  | plain (i : Instr)
  /-- `<arg>`. -/
  | arg (i : Instr)
  /-- `<n>`. -/
  | count (mk : Byte → Instr)
  /-- `<n>, <arg>`. -/
  | countArg (mk : Byte → Instr)
  /-- `<sym>`. -/
  | sym (mk : Byte → Instr)
  /-- `<sym>, <len>`. -/
  | symLen (mk : Byte → Byte → Instr)
  /-- A bit string. -/
  | bits (mk : Bits → List Line)
  /-- `<sym>, "<bits>"`, 1 to 255 bits. -/
  | symBits (mk : Byte → Bits → List Line)
  /-- Bytes, at least one. -/
  | bytes (mk : List Byte → List Line)
  /-- `<count>`, a word. -/
  | word (mk : Word → List Line)
  /-- A register's name. -/
  | reg
  /-- `ARG, <v>`. -/
  | argValue

/-- The mnemonics of the control and table commands (R98). -/
def controlTableMnemonics : List (String × Form) :=
  [("nop", .plain .nop), ("sreset", .plain .sreset), ("t_clr", .plain .tClr), ("t_row", .symLen .tRow),
   ("t_code", .countArg .tCode), ("t_rdrow", .arg .tRdrow), ("w_table", .plain .wTable), ("r_table", .plain .rTable)]

/-- The mnemonics of the stream commands (R98). -/
def streamMnemonics : List (String × Form) :=
  [("w_clr", .plain .wClr), ("w_bits", .countArg .wBits), ("w_int8", .arg .wInt8), ("w_int32", .arg .wInt32),
   ("w_sym", .sym .wSym), ("w_len", .plain .wLen), ("w_getb", .arg .wGetb), ("r_clr", .plain .rClr),
   ("r_putb", .arg .rPutb), ("r_peek", .count .rPeek), ("r_take", .count .rTake), ("r_int8", .plain .rInt8),
   ("r_int32", .plain .rInt32), ("r_sym", .plain .rSym)]

/-- The pseudo-instructions (R99) and the two lines that are host accesses (R98). -/
def otherMnemonics : List (String × Form) :=
  [("w_code", .bits wCode), ("t_load", .symBits tLoad), ("w_bytes", .bytes wBytes), ("r_load", .bytes rLoad),
   ("w_hdr", .word wHdr), ("read", .reg), ("write", .argValue)]

/-- The register names of R73. -/
def regNames : List (String × Reg) :=
  [("CMD", .cmd), ("ARG", .arg), ("RES", .res), ("STATUS", .status), ("WBITS", .wbits), ("RBITS", .rbits),
   ("ILEN", .ilen), ("TBLN", .tbln)]

/-- The entry under a name. -/
def lookupName {α : Type} (t : List (String × α)) (cs : List Char) : Option α :=
  (t.find? fun e => e.1.toList == cs).map (·.2)

/-- The lines a form makes of its operands. -/
def Form.lines : Form → List Operand → Option (List Line)
  | .plain i, [] => some [.cmd i none]
  | .arg i, [.num a] => (wordOf a).map fun v => [.cmd i (some v)]
  | .count mk, [.num n] => (byteOf n).map fun b => [.cmd (mk b) none]
  | .countArg mk, [.num n, .num a] =>
    match byteOf n, wordOf a with
    | some b, some v => some [.cmd (mk b) (some v)]
    | _, _ => none
  | .sym mk, [.num s] => (byteOf s).map fun b => [.cmd (mk b) none]
  | .symLen mk, [.num s, .num n] =>
    match byteOf s, byteOf n with
    | some b, some l => some [.cmd (mk b l) none]
    | _, _ => none
  | .bits mk, [.bits b] => some (mk b)
  | .symBits mk, [.num s, .bits b] =>
    if 1 ≤ b.length ∧ b.length ≤ 255 then (byteOf s).map fun y => mk y b else none
  | .bytes mk, os => (bytesOf os).map mk
  | .word mk, [.num n] => (wordOf n).map mk
  | .reg, [.name cs] => (lookupName regNames cs).map fun r => [.readReg r]
  | .argValue, [.name cs, .num v] =>
    if cs = "ARG".toList then (wordOf v).map fun w => [.writeArg w] else none
  | _, _ => none

/-- The lines of one line of text: none for a blank or comment line, nothing where R98 gives the text no meaning. -/
def parseLine (text : String) : Option (List Line) :=
  match tokens [] text.toList with
  | [] => some []
  | .word m :: ts =>
    match lookupName (controlTableMnemonics ++ streamMnemonics ++ otherMnemonics) m, operandsOf ts with
    | some f, some os => f.lines os
    | _, _ => none
  | _ => none

/-- A program in text, line by line. -/
def assemble : List String → Option (List Line)
  | [] => some []
  | t :: ts =>
    match parseLine t, assemble ts with
    | some ls, some rest => some (ls ++ rest)
    | _, _ => none

end Sys2Proof.Machine
end

