-- ==== Sys2Proof/Machine/HostProcedures.lean ====
section
/-! DEFINITION. The host's side of the contract: the reference table builder and the compressor and decompressor pipelines
of 46_host_procedures.md. It is host software (R5): text and UTF-8 stay outside, so a pipeline takes and gives bytes. -/

namespace Sys2Proof.Machine

/-! ## Reference table builder (R222 to R225) -/

/-- A tree of R223; a node carries the sum of its children's counts. -/
inductive HuffTree where
  | leaf (sym : Byte) (count : Nat)
  | node (left right : HuffTree) (count : Nat)
  deriving DecidableEq, Repr

/-- The count of a tree. -/
def HuffTree.count : HuffTree → Nat
  | .leaf _ n => n
  | .node _ _ n => n

/-- The bytes that occur, in ascending order, each with its count (R222, R223). -/
def leaves (b : List Byte) : List HuffTree :=
  (List.range 256).filterMap fun v =>
    if b.count (BitVec.ofNat 8 v) = 0 then none else some (.leaf (BitVec.ofNat 8 v) (b.count (BitVec.ofNat 8 v)))

/-- Remove the least-index tree of minimum count (R223). -/
def takeMin : List HuffTree → Option (HuffTree × List HuffTree)
  | [] => none
  | t :: ts =>
    match takeMin ts with
    | none => some (t, [])
    | some (m, rest) => if t.count ≤ m.count then some (t, ts) else some (m, t :: rest)

/-- Combine the two minima until one tree is left: the first taken goes left, the new node to the end (R223). -/
def mergeTrees : Nat → List HuffTree → List HuffTree
  | 0, work => work
  | fuel + 1, work =>
    match takeMin work with
    | none => work
    | some (x, work1) =>
      match takeMin work1 with
      | none => work
      | some (y, work2) => mergeTrees fuel (work2 ++ [.node x y (x.count + y.count)])

/-- The rows of a tree, depth first, left before right; a left edge is 0 and a right edge 1 (R225). -/
def HuffTree.rows : HuffTree → Bits → List (Byte × Bits)
  | .leaf s _, path => [(s, path)]
  | .node l r _, path => l.rows (path ++ [false]) ++ r.rows (path ++ [true])

/-- The reference table of a byte sequence: one symbol has the code "0" (R224), no byte has no table (R226). -/
def referenceTable (b : List Byte) : List (Byte × Bits) :=
  match mergeTrees (leaves b).length (leaves b) with
  | [.leaf s _] => [(s, [false])]
  | [t] => t.rows []
  | _ => []

/-! ## Pipelines (R220, R221, R229) -/

/-- Why a run fails (R229). -/
inductive HostFailure where
  /-- STATUS.ERR holds this code. -/
  | hcb (code : BitVec 4)
  /-- EmptyInputFailure (R226). -/
  | emptyInput
  /-- FormatFailure: a negative count (R221 step 6). -/
  | formatFailure
  deriving DecidableEq, Repr

/-- The end of a run (R229): the emitted bytes, or a failure that emits nothing. -/
inductive RunEnd where
  | emitted (bytes : List Byte)
  | failed (why : HostFailure)
  deriving DecidableEq, Repr

/-- The host performs events one after the other (R75). -/
def runEvents : List HostEvent → State → Result
  | [], s => .next s
  | e :: es, s =>
    match hostEvent e s with
    | .next t => runEvents es t
    | .fault f => .fault f
    | .refused r => .refused r

/-- The state after the host performs assembler lines. Lines make only accesses that have a meaning, so HCB never refuses
one. -/
def afterLines (p : List Line) (s : State) : State :=
  match runEvents (programEvents p) s with
  | .next t => t
  | .fault _ => s
  | .refused _ => s

/-- The host reads a register: the word it gets and the state after. -/
def hostRead (r : Reg) (s : State) : Word × State :=
  ((afterLines [.readReg r] s).responses.headD 0, afterLines [.readReg r] s)

/-- The host reads STATUS and looks at ERR. -/
def readErr (s : State) : BitVec 4 × State := ((hostRead .status s).1.extractLsb' 0 4, (hostRead .status s).2)

/-- Step 8 of R220: `w_getb i` and a read of RES, for `k` bytes from index `i`. -/
def readOut : Nat → Nat → State → List Byte × State
  | 0, _, s => ([], s)
  | k + 1, i, s =>
    let (v, t) := hostRead .res (afterLines [.cmd .wGetb (some (BitVec.ofNat 32 i))] s)
    let (rest, u) := readOut k (i + 1) t
    (v.extractLsb' 0 8 :: rest, u)

/-- Steps 2 to 6 of R220. -/
def compressLines (rows : List (Byte × Bits)) (n : Word) (b : List Byte) : List Line :=
  .cmd .sreset none :: rows.flatMap (fun r => tLoad r.1 r.2) ++ [.cmd .wInt32 (some n), .cmd .wTable none] ++
    b.map fun x => .cmd (.wSym x) none

/-- The host compressor (R220) on the bytes of a text of `n` characters. -/
def compress (n : Word) (b : List Byte) (s : State) : RunEnd :=
  if referenceTable b = [] then .failed .emptyInput
  else
    let (e, t) := readErr (afterLines (compressLines (referenceTable b) n b) s)
    if e ≠ 0 then .failed (.hcb e)
    else
      let (l, u) := hostRead .res (afterLines [.cmd .wLen none] t)
      let (out, v) := readOut l.toNat 0 u
      let (e', _) := readErr v
      if e' ≠ 0 then .failed (.hcb e') else .emitted out

/-- Step 7 of R221: `r_sym` and a read of RES, `k` times. -/
def decodeOut : Nat → State → List Byte × State
  | 0, s => ([], s)
  | k + 1, s =>
    let (v, t) := hostRead .res (afterLines [.cmd .rSym none] s)
    let (rest, u) := decodeOut k t
    (v.extractLsb' 0 8 :: rest, u)

/-- The host decompressor (R221), up to the bytes that step 9 reads as UTF-8. The count is read as a two's-complement
number (R8). -/
def decompress (d : List Byte) (s : State) : RunEnd :=
  let (n, t) := hostRead .res (afterLines (.cmd .sreset none :: rLoad d ++ [.cmd .rInt32 none]) s)
  let (e, u) := readErr (afterLines [.cmd .rTable none] t)
  if e ≠ 0 then .failed (.hcb e)
  else if n.toInt < 0 then .failed .formatFailure
  else
    let (out, v) := decodeOut n.toInt.toNat u
    let (e', _) := readErr v
    if e' ≠ 0 then .failed (.hcb e') else .emitted out

end Sys2Proof.Machine
end

