-- ==== Sys2Proof/Safety.lean ====
section
/-! DEFINITION. What counts as a safe run of HCB, in the terms the statements use: the storage invariants of 10_state.md
R31 and R39, the error record of 60_exceptions.md R251, the reset values of R38, and prefix-free tables (R108). -/

namespace Sys2Proof.Machine

/-- The invariants of one row (R31): 1 ≤ len ≤ 255 and 0 ≤ fill ≤ len. The bits at fill and above are 0 because none is
stored. -/
def Row.wf (r : Row) : Bool := decide (1 ≤ r.len.toNat) && decide (r.fill ≤ r.len.toNat)

/-- HCB's storage is in form: WBITS ≤ OUT_CAP_BITS, ILEN ≤ IN_CAP_BYTES, RBITS ≤ 8 × ILEN, TBLN ≤ 256 and every row in
form (R39, R31). The storage is held as the lists of R39, so equal storage is equal data (log 6). -/
def Memory.wf (s : State) : Bool :=
  decide (s.wbits ≤ s.cfg.outCapBits) && decide (s.ilen ≤ s.cfg.inCapBytes) && decide (s.rbits ≤ 8 * s.ilen) &&
  decide (s.tbln ≤ Config.maxRows) && s.tbl.all Row.wf

/-- Every piece of HCB's state has its value of R38. -/
abbrev State.AtReset (s : State) : Prop :=
  s.arg = 0 ∧ s.res = 0 ∧ s.err = 0 ∧ s.errOp = 0 ∧ s.complete = true ∧ s.wbits = 0 ∧ s.rbits = 0 ∧ s.ilen = 0 ∧
  s.tbln = 0

/-- The state invariant: legal capacities (R7), storage in form (R31, R39), and reset values while `rst_n` is asserted
(R280). -/
abbrev State.Inv (s : State) : Prop :=
  s.cfg.wf = true ∧ Memory.wf s = true ∧ (s.rstN = false → s.AtReset)

/-- The "raised by" column of R251, by OP; any word can raise E_ILLEGAL. -/
def raisedBy : HcbError → Byte → Bool
  | .lookupEnc, op => [0x24].contains op
  | .lookupDec, op => [0x36].contains op
  | .underflow, op => [0x32, 0x33, 0x34, 0x35, 0x15, 0x36].contains op
  | .empty, op => [0x14].contains op
  | .illegal, _ => true
  | .overflow, op => [0x21, 0x22, 0x23, 0x24, 0x14, 0x31, 0x11, 0x12].contains op
  | .incomplete, op => [0x24, 0x14, 0x36].contains op
  | .format, op => [0x11, 0x15].contains op
  | .range, op => [0x12, 0x13, 0x26].contains op

/-- The nine errors of R251. -/
def allErrors : List HcbError :=
  [.lookupEnc, .lookupDec, .underflow, .empty, .illegal, .overflow, .incomplete, .format, .range]

/-- STATUS.ERR and ERR_OP are legal together: both 0 (R25), or a code of R251 and an OP that raises it. -/
def errorRecordOk (err : BitVec 4) (op : Byte) : Bool :=
  (err == 0 && op == 0) || allErrors.any fun e => err == e.code && raisedBy e op

/-- No code is a prefix of another row's code, and no two are equal (R108). -/
def PrefixFree (t : List Row) : Prop :=
  t.Pairwise fun a b => ¬ a.code <+: b.code ∧ ¬ b.code <+: a.code

/-- A state a host may trust results and output in: the invariant holds and no error is recorded (R230, R287). -/
abbrev State.Safe (s : State) : Prop := s.Inv ∧ s.err = 0

end Sys2Proof.Machine
end

