-- ==== Sys2Proof/Certificates/Slice0/Obligations.lean ====
section
/-! DEFINITION. The statements for the provers, in the spec's terms. The first part names what several of them say; each
`Obligations.<Name>` is one statement, and OBLIGATIONS.json gives the rules it rests on. -/

open Sys2Proof Sys2Proof.Machine

namespace Sys2Proof.Claims

/-- The command word with fields OP, N and S and RSV = 0, written from the picture of R91. -/
abbrev command (op n s : Byte) : Word := 0#8 ++ s ++ n ++ op

/-- Command `i` fails with `e`: it writes STATUS.ERR and ERR_OP and nothing else (R254). -/
abbrev Fails (i : Instr) (s : State) (e : HcbError) : Prop :=
  exec i s = .next { s with err := e.code, errOp := i.opcode }

/-- Command `i` appends the bits c[0] .. c[n−1] to the writer's stream and changes nothing else: WBITS grows by n, the bits
below the old WBITS stay, and the new ones are c. -/
abbrev Appends (i : Instr) (s : State) (n : Nat) (c : Nat → Bool) : Prop :=
  ∃ t, exec i s = .next t ∧ t.wbits = s.wbits + n ∧ (∀ k < s.wbits, t.outBit k = s.outBit k) ∧
    (∀ j < n, t.outBit (s.wbits + j) = c j) ∧ t = { s with obuf := t.obuf }

/-- Command `i` puts the next n bits of the reader's stream in RES, first bit in RES[0] and zeros above, moves RBITS on by
`adv` and changes nothing else. -/
abbrev Reads (i : Instr) (s : State) (n adv : Nat) : Prop :=
  ∃ t, exec i s = .next t ∧ (∀ j, t.res.getLsbD j = (decide (j < n) && s.inBit (s.rbits + j))) ∧
    t = { s with res := t.res, rbits := s.rbits + adv }

/-- Row r's code equals the next bits of the reader's stream (R200). -/
abbrev Matches (s : State) (r : Row) : Prop :=
  r.len.toNat ≤ s.inRem ∧ ∀ j < r.len.toNat, s.inBit (s.rbits + j) = r.code.getD j false

/-- The position of row `i` in a serialized table (R104). -/
def rowStart (t : List Row) (i : Nat) : Nat := 8 + ((t.take i).map fun r => 16 + r.len.toNat).sum

/-- The bits of the reader's stream from position p are a serialized row (R104). -/
abbrev RowAt (s : State) (p : Nat) (r : Row) : Prop :=
  (∀ j < 8, s.inBit (p + j) = r.sym.getLsbD j) ∧ (∀ j < 8, s.inBit (p + 8 + j) = r.len.getLsbD j) ∧
  ∀ j < r.len.toNat, s.inBit (p + 16 + j) = r.code.getD j false

/-- W_SYM for each symbol in turn, from a state with no error; nothing if one fails. -/
def encodeAll : List Byte → State → Option State
  | [], s => some s
  | b :: bs, s =>
    match exec (.wSym b) s with
    | .next t => if t.err = 0 then encodeAll bs t else none
    | _ => none

/-- R_SYM `k` times, from a state with no error, collecting RES; nothing if one fails. -/
def decodeAll : Nat → State → Option (List Word × State)
  | 0, s => some ([], s)
  | k + 1, s =>
    match exec .rSym s with
    | .next t => if t.err = 0 then (decodeAll k t).map fun r => (t.res :: r.1, r.2) else none
    | _ => none

/-- The bits of a stream for bytes `b` with table `rows`: count, table, payload (R101 to R105). -/
def streamBits (rows : List (Byte × Bits)) (b : List Byte) : Nat :=
  32 + 8 + (rows.map fun r => 16 + r.2.length).sum +
    (b.map fun x => ((rows.find? fun r => r.1 == x).map fun r => r.2.length).getD 0).sum

end Sys2Proof.Claims

open Sys2Proof.Claims

/-! ## Reset, control and errors -/

/-- R38: reset, SRESET and `rst_n` going low all give the reset values. -/
def Obligations.ResetGivesTheResetValues : Prop :=
  State.reset.AtReset ∧
  (∀ s, ∃ t, exec .sreset s = .next t ∧ t.AtReset) ∧
  (∀ s, ∃ t, hostEvent (.rst false) s = .next t ∧ t.AtReset)

/-- R211: SRESET applies the reset values, blocked or not; the capacities, the pin and the host's side stay; only the exact
word is SRESET, and no other command clears STATUS.ERR. -/
def Obligations.SresetPutsEverythingToReset : Prop :=
  decode (command 0x01 0 0) = .ok .sreset ∧
  ∀ s : State,
    exec .sreset s = .next { s with arg := 0, res := 0, err := 0, errOp := 0, obuf := [], rbits := 0, ibuf := [], tbl := [] } ∧
    dispatchWord 0x00000001 s = exec .sreset s ∧
    exec .sreset (s.withRstN false) = hostEvent (.rst false) s ∧
    (∀ w, opField w = 0x01 → w ≠ 0x00000001 →
      dispatchWord w s = .next (if s.err = 0 then { s with err := 5, errOp := 0x01 } else s)) ∧
    ∀ (i : Instr) (t : State), exec i s = .next t → i ≠ .sreset → s.err ≠ 0 → t.err ≠ 0

/-- R210: NOP changes nothing, blocked or not; a word with OP 0x00 and any other bit set is not NOP. -/
def Obligations.NopChangesNothing : Prop :=
  decode (command 0x00 0 0) = .ok .nop ∧
  ∀ s : State,
    exec .nop s = .next s ∧ dispatchWord 0x00000000 s = .next s ∧
    ∀ w, opField w = 0x00 → w ≠ 0x00000000 →
      dispatchWord w s = .next (if s.err = 0 then { s with err := 5, errOp := 0x00 } else s)

/-- R255: what the host can and cannot do while HCB is blocked. -/
def Obligations.BlockedStateIgnoresCommands : Prop :=
  ∀ s : State, s.err ≠ 0 → s.rstN = true →
    (∀ w, w ≠ 0x00000000 → w ≠ 0x00000001 → hostEvent (cmdEvent w) s = .next s) ∧
    hostEvent (cmdEvent 0x00000000) s = .next s ∧
    (∃ t, hostEvent (cmdEvent 0x00000001) s = .next t ∧ t.AtReset) ∧
    (∀ r, hostEvent (readEvent r) s = .next { s with responses := regValue r s :: s.responses }) ∧
    ∀ v, hostEvent (argEvent v) s = .next { s with arg := v }

/-- R250: a command always comes to an end, either with no error or with one code of R251. -/
def Obligations.EveryCommandCompletesOrFailsOnce : Prop :=
  ∀ (i : Instr) (s : State), s.err = 0 →
    ∃ t, exec i s = .next t ∧ (t.err = 0 ∨ ∃ e : HcbError, t.err = e.code ∧ t.errOp = i.opcode)

/-- R254: a command word that ends in an error writes a code of R251 and its own OP, and every other piece of state keeps
its value. -/
def Obligations.FailingCommandIsPrecise : Prop :=
  ∀ (w : Word) (s t : State), s.err = 0 → dispatchWord w s = .next t → t.err ≠ 0 →
    ∃ e : HcbError, t = { s with err := e.code, errOp := opField w }

/-- R259, R260: no step but a reset changes a recorded error, and a reset discards all state. -/
def Obligations.OnlyResetLeavesTheBlockedState : Prop :=
  ∀ s t : State, s.err ≠ 0 → step s = .next t →
    (t.err = s.err ∧ t.errOp = s.errOp) ∨
    (t.AtReset ∧ ∃ es, s.inputs = .rst false :: es ∨ (s.rstN = true ∧ s.inputs = .write 0x00 4 0x00000001 :: es))

/-- R251: the codes, and that every step keeps the error record legal: ERR_OP is 0 without an error, and otherwise an OP
that the table lets raise the code. -/
def Obligations.StepKeepsTheErrorRecordLegal : Prop :=
  [HcbError.lookupEnc, .lookupDec, .underflow, .empty, .illegal, .overflow, .incomplete, .format, .range].map HcbError.code =
    [1, 2, 3, 4, 5, 6, 7, 8, 9] ∧
  errorRecordOk State.reset.err State.reset.errOp = true ∧
  ∀ s t : State, errorRecordOk s.err s.errOp = true → step s = .next t → errorRecordOk t.err t.errOp = true

/-! ## Encoding and dispatch -/

/-- Words written out from R95 decode to their commands; illegal ones are rejected. -/
def Obligations.SampleWordsDecode : Prop :=
  decode 0x00620111 = .ok (.tRow 0x62 1) ∧ decode 0x00000112 = .ok (.tCode 1) ∧ decode 0x00000013 = .ok .tRdrow ∧
  decode 0x00002021 = .ok (.wBits 32) ∧ decode 0x00610024 = .ok (.wSym 0x61) ∧ decode 0x00000332 = .ok (.rPeek 3) ∧
  decode 0x00000036 = .ok .rSym ∧ decode 0x00002121 = .error .countTooLarge ∧ decode 0x00000120 = .error .unusedField ∧
  decode 0x00000037 = .error .unknownOp

/-- Decoding an encoded legal command gives it back, at every value of its operands. -/
def Obligations.DecodeOfEncodeIsTheCommand : Prop :=
  ∀ i : Instr, i.wf = true → decode (encode i) = .ok i

/-- A word that decodes is the one word of a legal command. -/
def Obligations.EncodeOfDecodeIsTheWord : Prop :=
  ∀ (w : Word) (i : Instr), decode w = .ok i → i.wf = true ∧ encode i = w

/-- R96: exactly the words with an unknown OP, a nonzero unused field or a chunk count above 32 are illegal, no word selects
two rows, and an illegal word changes nothing but STATUS. -/
def Obligations.IllegalWordsAreThoseOfTheSpec : Prop :=
  (∀ w : Word, (∃ e, decode w = .error e) ↔
    ((0x02 ≤ opField w ∧ opField w ≤ 0x0F) ∨ (0x16 ≤ opField w ∧ opField w ≤ 0x1F) ∨
      (0x27 ≤ opField w ∧ opField w ≤ 0x2F) ∨ 0x37 ≤ opField w) ∨
    rsvField w ≠ 0 ∨
    (opField w ∉ [0x11, 0x12, 0x21, 0x32, 0x33] ∧ nField w ≠ 0) ∨
    (opField w ∉ [0x11, 0x24] ∧ sField w ≠ 0) ∨
    (opField w ∈ [0x12, 0x21, 0x32, 0x33] ∧ 32 < (nField w).toNat)) ∧
  (∀ w : Word, ∀ r₁ ∈ opcodeMap, ∀ r₂ ∈ opcodeMap, r₁.selects w = true → r₂.selects w = true →
    r₁.pattern = r₂.pattern ∧ r₁.mask = r₂.mask) ∧
  ∀ (w : Word) (s : State) (e : DecodeError), s.err = 0 → decode w = .error e →
    dispatchWord w s = .next { s with err := 5, errOp := opField w }

/-- R253: the dispatch of a CMD write, blocked and not. -/
def Obligations.DispatchOfACommandWrite : Prop :=
  ∀ (s : State) (w : Word), s.rstN = true →
    (s.err ≠ 0 → hostEvent (.write 0x00 4 w) s =
      if w = 0x00000001 then exec .sreset s else if w = 0x00000000 then exec .nop s else .next s) ∧
    (s.err = 0 → ∀ r ∈ opcodeMap, w &&& r.mask = r.pattern → hostEvent (.write 0x00 4 w) s =
      if opField w ∈ [0x21, 0x12, 0x32, 0x33] ∧ 32 < (nField w).toNat
      then .next { s with err := 5, errOp := opField w } else exec (r.build (nField w) (sField w)) s) ∧
    (s.err = 0 → (∀ r ∈ opcodeMap, w &&& r.mask ≠ r.pattern) →
      hostEvent (.write 0x00 4 w) s = .next { s with err := 5, errOp := opField w })

/-- A step on a pending CMD write of a legal word, not blocked and not in reset, is that command run on the state with the
event taken; and the host's fetch aid brings exactly that about. -/
def Obligations.StepRunsTheDecodedCommand : Prop :=
  (∀ (s : State) (w : Word) (i : Instr) (es : List HostEvent),
    s.inputs = .write 0x00 4 w :: es → s.rstN = true → s.err = 0 → decode w = .ok i →
    step s = exec i { s with inputs := es }) ∧
  (∀ (s : State) (i : Instr), s.rstN = true → s.err = 0 → i.wf = true →
    step (s.withFetchWord 32 (encode i).toNat) = exec i s)

/-! ## The host's side -/

/-- R73, R72: a read of each register at its offset returns its value, CMD returns 0, and nothing of HCB changes. -/
def Obligations.ReadsReturnTheRegisters : Prop :=
  ∀ s : State, s.rstN = true →
    ∀ p ∈ [(0x00, 0#32), (0x04, s.arg), (0x08, s.res), (0x0C, s.status), (0x10, BitVec.ofNat 32 s.obuf.length),
        (0x14, BitVec.ofNat 32 s.rbits), (0x18, BitVec.ofNat 32 s.ibuf.length), (0x1C, BitVec.ofNat 32 s.tbl.length)],
      hostEvent (.read p.1 4) s = .next { s with responses := p.2 :: s.responses }

/-- R72: a write of CMD executes, a write of ARG sets ARG, and a write of any other register is ignored. -/
def Obligations.WritesReachOnlyCmdAndArg : Prop :=
  ∀ (s : State) (v : Word), s.rstN = true →
    hostEvent (.write 0x00 4 v) s = dispatchWord v s ∧
    hostEvent (.write 0x04 4 v) s = .next { s with arg := v } ∧
    (∀ off ∈ [0x08, 0x0C, 0x10, 0x14, 0x18, 0x1C], hostEvent (.write off 4 v) s = .next s) ∧
    (∀ t, hostEvent (.write 0x04 4 v) s = .next t →
      hostEvent (.read 0x04 4) t = .next { t with responses := v :: t.responses })

/-- R71: an access that is not 32 bits wide, not aligned, or outside the window is refused, and no other access is. -/
def Obligations.AccessesWithoutMeaningAreRefused : Prop :=
  ∀ (s : State) (off size : Nat) (v : Word),
    (size ≠ 4 ∨ off % 4 ≠ 0 ∨ 0x20 ≤ off →
      (∃ r, hostEvent (.read off size) s = .refused r) ∧ ∃ r, hostEvent (.write off size v) s = .refused r) ∧
    (size = 4 → off % 4 = 0 → off < 0x20 →
      (∃ t, hostEvent (.read off size) s = .next t) ∧ ∃ t, hostEvent (.write off size v) s = .next t)

/-- R25: the fields of STATUS, and the zeros between them. -/
def Obligations.StatusLayout : Prop :=
  ∀ s : State,
    (∀ j < 4, s.status.getLsbD j = s.err.getLsbD j) ∧
    (∀ j, 4 ≤ j → j < 8 → s.status.getLsbD j = false) ∧
    (∀ j < 8, s.status.getLsbD (8 + j) = s.errOp.getLsbD j) ∧
    (s.status.getLsbD 16 = true ↔ ∀ r ∈ s.tbl, r.code.length = r.len.toNat) ∧
    (∀ j, 17 ≤ j → s.status.getLsbD j = false)

/-- R280: `rst_n` going low and SRESET have the same effect, the reset values; and while `rst_n` is low accesses have no
effect and reads return 0. -/
def Obligations.ResetInputHoldsTheMachine : Prop :=
  (∀ s : State, hostEvent (.rst false) s =
    .next { s with arg := 0, res := 0, err := 0, errOp := 0, obuf := [], rbits := 0, ibuf := [], tbl := [], rstN := false }) ∧
  (∀ s : State, exec .sreset s =
    .next { s with arg := 0, res := 0, err := 0, errOp := 0, obuf := [], rbits := 0, ibuf := [], tbl := [] }) ∧
  (∀ s : State, hostEvent (.rst true) s = .next { s with rstN := true }) ∧
  ∀ (s : State) (off : Nat) (v : Word), s.rstN = false → off % 4 = 0 → off < 0x20 →
    hostEvent (.write off 4 v) s = .next s ∧
    hostEvent (.read off 4) s = .next { s with responses := 0 :: s.responses }

/-- HCB does nothing on its own: with no host event a step keeps all state, and with one it is that event's effect. -/
def Obligations.HcbActsOnlyOnHostEvents : Prop :=
  (∀ s : State, s.inputs = [] → step s = .next s) ∧
  ∀ (s : State) (e : HostEvent) (es : List HostEvent), s.inputs = e :: es → step s = hostEvent e { s with inputs := es }

/-- R75: running the machine for as many steps as there are events performs them in the host's program order, one at a
time. -/
def Obligations.StepsFollowTheHostsProgramOrder : Prop :=
  ∀ (es rest : List HostEvent) (s t : State), runEvents es { s with inputs := rest } = .next t →
    core.run es.length { s with inputs := es ++ rest } = .next t

/-! ## Whole-machine frames and invariants -/

/-- The storage invariants hold at reset. -/
def Obligations.ResetMeetsTheInvariant : Prop := State.reset.Inv

/-- R31, R39: every step keeps the storage invariants. -/
def Obligations.StepKeepsTheInvariant : Prop :=
  ∀ s t : State, s.Inv → step s = .next t → t.Inv

/-- R22: no command but SRESET writes ARG. -/
def Obligations.CommandsLeaveArg : Prop :=
  ∀ (i : Instr) (s t : State), exec i s = .next t → i ≠ .sreset → t.arg = s.arg

/-- R23: only the nine result commands write RES, and a failing or ignored one leaves it. -/
def Obligations.OnlyResultCommandsWriteRes : Prop :=
  (∀ (i : Instr) (s t : State), exec i s = .next t → i ≠ .sreset →
    i.opcode ∉ [0x13, 0x15, 0x25, 0x26, 0x32, 0x33, 0x34, 0x35, 0x36] → t.res = s.res) ∧
  (∀ (w : Word) (s t : State), s.err = 0 → dispatchWord w s = .next t → t.err ≠ 0 → t.res = s.res) ∧
  ∀ (w : Word) (s t : State), s.err ≠ 0 → dispatchWord w s = .next t → w ≠ 0x00000001 → t.res = s.res

/-- Which commands change the table, the writer's stream and the reader's stream (R60). -/
def Obligations.StorageChangesOnlyByItsCommands : Prop :=
  ∀ (i : Instr) (s t : State), exec i s = .next t → i ≠ .sreset →
    (i.opcode ∉ [0x10, 0x11, 0x12, 0x15] → t.tbl = s.tbl) ∧
    (i.opcode ∉ [0x14, 0x20, 0x21, 0x22, 0x23, 0x24] → t.obuf = s.obuf) ∧
    (i.opcode ∉ [0x30, 0x31] → t.ibuf = s.ibuf) ∧
    (i.opcode ∉ [0x15, 0x30, 0x33, 0x34, 0x35, 0x36] → t.rbits = s.rbits)

/-- Only W_CLR and SRESET take bits from the writer's stream: every other command keeps all of it in place. -/
def Obligations.WriterStreamOnlyGrows : Prop :=
  ∀ (i : Instr) (s t : State), exec i s = .next t → i ≠ .sreset → i ≠ .wClr →
    s.wbits ≤ t.wbits ∧ ∀ k < s.wbits, t.outBit k = s.outBit k

/-- A command neither reads nor writes the host's side, the pin or the capacities' values. -/
def Obligations.CommandsIgnoreTheHostsSide : Prop :=
  ∀ (i : Instr) (s t : State) (es : List HostEvent) (rs : List Word) (l : Bool), exec i s = .next t →
    t.cfg = s.cfg ∧
    exec i { s with inputs := es, responses := rs, rstN := l } = .next { t with inputs := es, responses := rs, rstN := l }

/-! ## The writer -/

/-- R130. -/
def Obligations.WClrEmptiesTheWriter : Prop :=
  decode (command 0x20 0 0) = .ok .wClr ∧
  ∀ s : State, ∃ t, exec .wClr s = .next t ∧ t.wbits = 0 ∧ (∀ k, t.outBit k = false) ∧ t = { s with obuf := t.obuf }

/-- R131: W_BITS appends ARG[0] .. ARG[N−1], or raises E_OVERFLOW and appends nothing; N > 32 is illegal. -/
def Obligations.WBitsAppendsTheChunk : Prop :=
  (∀ n : Byte, decode (command 0x21 n 0) = if n.toNat ≤ 32 then .ok (.wBits n) else .error .countTooLarge) ∧
  ∀ (n : Byte) (s : State), n.toNat ≤ 32 →
    (s.wbits + n.toNat ≤ 8 * s.cfg.outCapBytes → Appends (.wBits n) s n.toNat fun j => s.arg.getLsbD j) ∧
    (s.wbits + n.toNat > 8 * s.cfg.outCapBytes → Fails (.wBits n) s .overflow)

/-- R132 and R133: W_INT8 appends ARG[0] .. ARG[7] and W_INT32 all of ARG, or E_OVERFLOW; they behave as W_BITS 8 and
W_BITS 32. -/
def Obligations.WIntAppendsTheInteger : Prop :=
  decode (command 0x22 0 0) = .ok .wInt8 ∧ decode (command 0x23 0 0) = .ok .wInt32 ∧
  ∀ s : State,
    (s.wbits + 8 ≤ 8 * s.cfg.outCapBytes →
      Appends .wInt8 s 8 (fun j => s.arg.getLsbD j) ∧ exec .wInt8 s = exec (.wBits 8) s) ∧
    (s.wbits + 8 > 8 * s.cfg.outCapBytes → Fails .wInt8 s .overflow) ∧
    (s.wbits + 32 ≤ 8 * s.cfg.outCapBytes →
      Appends .wInt32 s 32 (fun j => s.arg.getLsbD j) ∧ exec .wInt32 s = exec (.wBits 32) s) ∧
    (s.wbits + 32 > 8 * s.cfg.outCapBytes → Fails .wInt32 s .overflow)

/-- R62: on a byte-aligned stream a 32-bit field is four stream bytes, least significant first, and an 8-bit field is its
byte; a register's byte i is its bits [8i+7:8i] (R70). -/
def Obligations.AlignedIntegersAreLittleEndianBytes : Prop :=
  ∀ s t : State, s.wbits % 8 = 0 →
    (s.wbits + 32 ≤ 8 * s.cfg.outCapBytes → exec .wInt32 s = .next t →
      t.outByte (s.wbits / 8) = s.arg.extractLsb' 0 8 ∧ t.outByte (s.wbits / 8 + 1) = s.arg.extractLsb' 8 8 ∧
      t.outByte (s.wbits / 8 + 2) = s.arg.extractLsb' 16 8 ∧ t.outByte (s.wbits / 8 + 3) = s.arg.extractLsb' 24 8) ∧
    (s.wbits + 8 ≤ 8 * s.cfg.outCapBytes → exec .wInt8 s = .next t →
      t.outByte (s.wbits / 8) = s.arg.extractLsb' 0 8) ∧
    ∀ i < 4, ∀ j < 8, (wordByte s.arg i).getLsbD j = s.arg.getLsbD (8 * i + j)

/-- R134. -/
def Obligations.WLenGivesThePackedLength : Prop :=
  decode (command 0x25 0 0) = .ok .wLen ∧
  ∀ s : State, exec .wLen s = .next { s with res := BitVec.ofNat 32 ((s.wbits + 7) / 8) }

/-- R135: W_GETB gives byte ARG of the packed stream, zero-extended, and E_RANGE at or beyond the packed length. -/
def Obligations.WGetbReadsAPackedByte : Prop :=
  decode (command 0x26 0 0) = .ok .wGetb ∧
  ∀ s : State,
    (s.arg.toNat < (s.wbits + 7) / 8 →
      ∃ t, exec .wGetb s = .next t ∧
        (∀ b, t.res.getLsbD b = (decide (b < 8) && s.outBit (8 * s.arg.toNat + b))) ∧ t = { s with res := t.res }) ∧
    (s.arg.toNat ≥ (s.wbits + 7) / 8 → Fails .wGetb s .range)

/-- R63: OutBit is the stored bit below WBITS and 0 at and above it, so the last byte of the packed stream is 0 above the
stream's last bit; there are (8 − WBITS mod 8) mod 8 such bits (R106). -/
def Obligations.PaddingBitsAreZero : Prop :=
  ∀ s : State,
    (∀ k b, s.obuf[k]? = some b → s.outBit k = b) ∧
    (∀ k, s.wbits ≤ k → s.outBit k = false) ∧
    8 * ((s.wbits + 7) / 8) = s.wbits + (8 - s.wbits % 8) % 8 ∧
    ∀ b < 8, s.wbits ≤ 8 * ((s.wbits + 7) / 8 - 1) + b → (s.outByte ((s.wbits + 7) / 8 - 1)).getLsbD b = false

/-- R99: the chunked `w_code` of any bit string, as host accesses, appends the whole string when it fits. -/
def Obligations.WCodeAppendsTheWholeBitString : Prop :=
  ∀ (b : Bits) (s : State), s.rstN = true → s.err = 0 → s.wbits + b.length ≤ 8 * s.cfg.outCapBytes →
    ∃ t, runEvents (programEvents (wCode b)) s = .next t ∧ t = { s with obuf := s.obuf ++ b, arg := t.arg }

/-! ## The reader -/

/-- R150. -/
def Obligations.RClrEmptiesTheReader : Prop :=
  decode (command 0x30 0 0) = .ok .rClr ∧
  ∀ s : State, ∃ t, exec .rClr s = .next t ∧ t.ilen = 0 ∧ t.rbits = 0 ∧ t = { s with ibuf := t.ibuf, rbits := t.rbits }

/-- R151: R_PUTB appends ARG[7:0], or raises E_OVERFLOW when IBUF is full; the stream grows by 8 bits and its old bits
stay. -/
def Obligations.RPutbAppendsAByte : Prop :=
  decode (command 0x31 0 0) = .ok .rPutb ∧
  ∀ s : State,
    (s.ilen ≠ s.cfg.inCapBytes →
      ∃ t, exec .rPutb s = .next t ∧ t.ilen = s.ilen + 1 ∧ (∀ k < 8 * s.ilen, t.inBit k = s.inBit k) ∧
        (∀ j < 8, t.inBit (8 * s.ilen + j) = s.arg.getLsbD j) ∧ (s.rbits ≤ 8 * s.ilen → t.inRem = s.inRem + 8) ∧
        t = { s with ibuf := t.ibuf }) ∧
    (s.ilen = s.cfg.inCapBytes → Fails .rPutb s .overflow)

/-- R152: R_PEEK gives the next N bits and leaves RBITS; an under-read raises E_UNDERFLOW; N > 32 is illegal. -/
def Obligations.RPeekLooksAhead : Prop :=
  (∀ n : Byte, decode (command 0x32 n 0) = if n.toNat ≤ 32 then .ok (.rPeek n) else .error .countTooLarge) ∧
  ∀ (n : Byte) (s : State), n.toNat ≤ 32 →
    (n.toNat ≤ s.inRem → Reads (.rPeek n) s n.toNat 0) ∧ (n.toNat > s.inRem → Fails (.rPeek n) s .underflow)

/-- R153: R_TAKE gives the next N bits and moves RBITS on by N; an under-read raises E_UNDERFLOW. -/
def Obligations.RTakeConsumes : Prop :=
  (∀ n : Byte, decode (command 0x33 n 0) = if n.toNat ≤ 32 then .ok (.rTake n) else .error .countTooLarge) ∧
  ∀ (n : Byte) (s : State), n.toNat ≤ 32 →
    (n.toNat ≤ s.inRem → Reads (.rTake n) s n.toNat n.toNat) ∧ (n.toNat > s.inRem → Fails (.rTake n) s .underflow)

/-- R154 and R155: R_INT8 and R_INT32 read and consume 8 and 32 bits as R_TAKE does; an under-read raises E_UNDERFLOW. -/
def Obligations.RIntConsumesAnInteger : Prop :=
  decode (command 0x34 0 0) = .ok .rInt8 ∧ decode (command 0x35 0 0) = .ok .rInt32 ∧
  ∀ s : State,
    (8 ≤ s.inRem → Reads .rInt8 s 8 8 ∧ exec .rInt8 s = exec (.rTake 8) s) ∧
    (8 > s.inRem → Fails .rInt8 s .underflow) ∧
    (32 ≤ s.inRem → Reads .rInt32 s 32 32 ∧ exec .rInt32 s = exec (.rTake 32) s) ∧
    (32 > s.inRem → Fails .rInt32 s .underflow)

/-- R69: a 32-bit field is the four 8-bit fields at the same place, the first least significant, at any bit position. -/
def Obligations.Int32IsFourInt8 : Prop :=
  ∀ s : State, 32 ≤ s.inRem →
    ∃ t a b c d, exec .rInt32 s = .next t ∧ exec .rInt8 s = .next a ∧ exec .rInt8 a = .next b ∧
      exec .rInt8 b = .next c ∧ exec .rInt8 c = .next d ∧
      t.res = a.res ||| (b.res <<< 8) ||| (c.res <<< 16) ||| (d.res <<< 24) ∧ t.rbits = d.rbits

/-! ## The table -/

/-- R170. -/
def Obligations.TClrEmptiesTheTable : Prop :=
  decode (command 0x10 0 0) = .ok .tClr ∧
  ∀ s : State, ∃ t, exec .tClr s = .next t ∧ t.tbln = 0 ∧ t.complete = true ∧ t = { s with tbl := t.tbl }

/-- R171: T_ROW appends a row with no code bits; length 0 raises E_FORMAT, before a full table raises E_OVERFLOW. -/
def Obligations.TRowAppendsARow : Prop :=
  (∀ sym len : Byte, decode (command 0x11 len sym) = .ok (.tRow sym len)) ∧
  ∀ (sym len : Byte) (s : State),
    (len = 0 → Fails (.tRow sym len) s .format) ∧
    (len ≠ 0 → s.tbln = 256 → Fails (.tRow sym len) s .overflow) ∧
    (len ≠ 0 → s.tbln ≠ 256 →
      exec (.tRow sym len) s = .next { s with tbl := s.tbl ++ [⟨sym, len, []⟩] } ∧
      ∀ t, exec (.tRow sym len) s = .next t → t.complete = false)

/-- R172: T_CODE appends the bits ARG[0] .. ARG[N−1] to the last row; no row raises E_RANGE, too many bits E_OVERFLOW. -/
def Obligations.TCodeFillsTheLastRow : Prop :=
  (∀ n : Byte, decode (command 0x12 n 0) = if n.toNat ≤ 32 then .ok (.tCode n) else .error .countTooLarge) ∧
  ∀ (n : Byte) (s : State), n.toNat ≤ 32 →
    (s.tbl = [] → Fails (.tCode n) s .range) ∧
    ∀ (front : List Row) (r : Row), s.tbl = front ++ [r] →
      (r.code.length + n.toNat > r.len.toNat → Fails (.tCode n) s .overflow) ∧
      (r.code.length + n.toNat ≤ r.len.toNat →
        ∃ c : Bits, exec (.tCode n) s = .next { s with tbl := front ++ [⟨r.sym, r.len, r.code ++ c⟩] } ∧
          c.length = n.toNat ∧ ∀ j < n.toNat, c.getD j false = s.arg.getLsbD j)

/-- R173: T_RDROW packs the symbol, length and fill count of row ARG in RES; no such row raises E_RANGE. -/
def Obligations.TRdrowReadsARow : Prop :=
  decode (command 0x13 0 0) = .ok .tRdrow ∧
  ∀ s : State,
    (s.arg.toNat ≥ s.tbl.length → Fails .tRdrow s .range) ∧
    ∀ r, s.tbl[s.arg.toNat]? = some r → r.code.length ≤ 255 →
      exec .tRdrow s =
        .next { s with res := BitVec.ofNat 32 (r.sym.toNat + 2 ^ 8 * r.len.toNat + 2 ^ 16 * r.code.length) }

/-- R174: W_TABLE's error order, and where every field of the serialized table lands. -/
def Obligations.WTableLaysOutTheTable : Prop :=
  decode (command 0x14 0 0) = .ok .wTable ∧
  ∀ s : State, s.tbl.length ≤ 256 →
    (s.tbl = [] → Fails .wTable s .empty) ∧
    (s.tbl ≠ [] → (∃ r ∈ s.tbl, r.code.length ≠ r.len.toNat) → Fails .wTable s .incomplete) ∧
    (s.tbl ≠ [] → (∀ r ∈ s.tbl, r.code.length = r.len.toNat) →
      (s.wbits + rowStart s.tbl s.tbl.length > 8 * s.cfg.outCapBytes → Fails .wTable s .overflow) ∧
      (s.wbits + rowStart s.tbl s.tbl.length ≤ 8 * s.cfg.outCapBytes →
        ∃ t, exec .wTable s = .next t ∧ t = { s with obuf := t.obuf } ∧
          t.wbits = s.wbits + rowStart s.tbl s.tbl.length ∧
          (∀ k < s.wbits, t.outBit k = s.outBit k) ∧
          (∀ j < 8, t.outBit (s.wbits + j) = (s.tbl.length - 1).testBit j) ∧
          ∀ i r, s.tbl[i]? = some r →
            (∀ j < 8, t.outBit (s.wbits + rowStart s.tbl i + j) = r.sym.getLsbD j) ∧
            (∀ j < 8, t.outBit (s.wbits + rowStart s.tbl i + 8 + j) = r.len.getLsbD j) ∧
            ∀ j < r.len.toNat, t.outBit (s.wbits + rowStart s.tbl i + 16 + j) = r.code.getD j false))

/-- R175: R_TABLE reads back every legal serialized table, with identical row order, whatever table was there and whatever
follows it in the stream. -/
def Obligations.RTableReadsBackEveryTable : Prop :=
  decode (command 0x15 0 0) = .ok .rTable ∧
  ∀ (s : State) (rows : List Row), 1 ≤ rows.length → rows.length ≤ 256 →
    (∀ r ∈ rows, r.len ≠ 0 ∧ r.code.length = r.len.toNat) →
    s.rbits + rowStart rows rows.length ≤ 8 * s.ilen →
    (∀ j < 8, s.inBit (s.rbits + j) = (rows.length - 1).testBit j) →
    (∀ i r, rows[i]? = some r → RowAt s (s.rbits + rowStart rows i) r) →
    exec .rTable s =
      .next { s with tbl := rows, rbits := s.rbits + rowStart rows rows.length, res := BitVec.ofNat 32 rows.length }

/-- R175: R_TABLE's failures: a missing field raises E_UNDERFLOW and a zero length E_FORMAT, the first in field order, after
any number `k` of good rows; nothing but STATUS changes. -/
def Obligations.RTableFailsAtTheFirstBadField : Prop :=
  ∀ s : State,
    (s.rbits + 8 > 8 * s.ilen → Fails .rTable s .underflow) ∧
    ∀ (c : Nat) (good : List Row), c < 256 → good.length ≤ c →
      s.rbits + rowStart good good.length ≤ 8 * s.ilen →
      (∀ r ∈ good, r.len ≠ 0 ∧ r.code.length = r.len.toNat) →
      (∀ j < 8, s.inBit (s.rbits + j) = c.testBit j) →
      (∀ i r, good[i]? = some r → RowAt s (s.rbits + rowStart good i) r) →
      (s.rbits + rowStart good good.length + 16 > 8 * s.ilen → Fails .rTable s .underflow) ∧
      (s.rbits + rowStart good good.length + 16 ≤ 8 * s.ilen →
        ∀ len : Byte, (∀ j < 8, s.inBit (s.rbits + rowStart good good.length + 8 + j) = len.getLsbD j) →
          (len = 0 → Fails .rTable s .format) ∧
          (len ≠ 0 → s.rbits + rowStart good good.length + 16 + len.toNat > 8 * s.ilen → Fails .rTable s .underflow))

/-- R99, R172: `t_load` of any code of 1 to 255 bits, as host accesses, leaves one more complete row with that code. -/
def Obligations.TLoadLoadsTheWholeCode : Prop :=
  ∀ (sym : Byte) (b : Bits) (s : State), s.rstN = true → s.err = 0 → s.tbln < 256 → 1 ≤ b.length → b.length ≤ 255 →
    ∃ t, runEvents (programEvents (tLoad sym b)) s = .next t ∧
      t = { s with tbl := s.tbl ++ [⟨sym, BitVec.ofNat 8 b.length, b⟩], arg := t.arg }

/-! ## Encode and decode -/

/-- R190, R191: W_SYM appends the code of the least-index row with the symbol; its errors in order. -/
def Obligations.WSymAppendsTheFirstRowsCode : Prop :=
  (∀ sym : Byte, decode (command 0x24 0 sym) = .ok (.wSym sym)) ∧
  ∀ (sym : Byte) (s : State),
    ((∃ r ∈ s.tbl, r.code.length ≠ r.len.toNat) → Fails (.wSym sym) s .incomplete) ∧
    ((∀ r ∈ s.tbl, r.code.length = r.len.toNat) →
      ((∀ r ∈ s.tbl, r.sym ≠ sym) → Fails (.wSym sym) s .lookupEnc) ∧
      ∀ (front back : List Row) (r : Row), s.tbl = front ++ r :: back → (∀ q ∈ front, q.sym ≠ sym) → r.sym = sym →
        (s.wbits + r.len.toNat > 8 * s.cfg.outCapBytes → Fails (.wSym sym) s .overflow) ∧
        (s.wbits + r.len.toNat ≤ 8 * s.cfg.outCapBytes →
          Appends (.wSym sym) s r.len.toNat fun j => r.code.getD j false))

/-- R200, R201: R_SYM takes the first row in stored order whose code equals the next bits. -/
def Obligations.RSymTakesTheFirstMatch : Prop :=
  decode (command 0x36 0 0) = .ok .rSym ∧
  ∀ (s : State) (front back : List Row) (r : Row), (∀ r ∈ s.tbl, r.code.length = r.len.toNat) →
    s.tbl = front ++ r :: back → (∀ q ∈ front, ¬ Matches s q) → Matches s r →
    exec .rSym s = .next { s with rbits := s.rbits + r.len.toNat, res := r.sym.setWidth 32 }

/-- R200: R_SYM's errors: an incomplete table; and with no matching row E_UNDERFLOW if some row was longer than the bits
that remain, else E_LOOKUP_DEC. -/
def Obligations.RSymFailsWithoutAMatch : Prop :=
  ∀ s : State,
    ((∃ r ∈ s.tbl, r.code.length ≠ r.len.toNat) → Fails .rSym s .incomplete) ∧
    ((∀ r ∈ s.tbl, r.code.length = r.len.toNat) → (∀ r ∈ s.tbl, ¬ Matches s r) →
      ((∃ r ∈ s.tbl, r.len.toNat > s.inRem) → Fails .rSym s .underflow) ∧
      ((∀ r ∈ s.tbl, r.len.toNat ≤ s.inRem) → Fails .rSym s .lookupDec))

/-- R202: on a prefix-free table a row that matches is the one R_SYM takes, wherever it stands in the table. -/
def Obligations.RSymOnAPrefixFreeTableIgnoresRowOrder : Prop :=
  ∀ (s : State) (r : Row), (∀ q ∈ s.tbl, q.code.length = q.len.toNat) → PrefixFree s.tbl → r ∈ s.tbl → Matches s r →
    exec .rSym s = .next { s with rbits := s.rbits + r.len.toNat, res := r.sym.setWidth 32 } ∧
    ∀ tbl : List Row, tbl.Perm s.tbl →
      exec .rSym { s with tbl := tbl } =
        .next { s with tbl := tbl, rbits := s.rbits + r.len.toNat, res := r.sym.setWidth 32 }

/-- The payload round trip: what W_SYM appends for a list of symbols, R_SYM reads back, symbol for symbol and bit for bit,
on a complete prefix-free table, from any bit position and whatever follows in the reader's stream. -/
def Obligations.DecodingAnEncodedPayloadGivesTheSymbols : Prop :=
  ∀ (e e' d : State) (syms : List Byte), e.err = 0 → d.err = 0 → (∀ r ∈ e.tbl, r.code.length = r.len.toNat) →
    PrefixFree e.tbl → encodeAll syms e = some e' → d.tbl = e.tbl →
    d.rbits + (e'.wbits - e.wbits) ≤ 8 * d.ilen →
    (∀ k < e'.wbits - e.wbits, d.inBit (d.rbits + k) = e'.outBit (e.wbits + k)) →
    ∃ d', decodeAll syms.length d = some (syms.map fun b => b.setWidth 32, d') ∧
      d'.rbits = d.rbits + (e'.wbits - e.wbits)

/-! ## Host procedures -/

/-- R225: the reference table of a non-empty byte sequence has one row per distinct byte, codes of 1 to 255 bits, and is
prefix-free. -/
def Obligations.ReferenceTableIsPrefixFree : Prop :=
  ∀ b : List Byte, b ≠ [] →
    (∀ x, x ∈ (referenceTable b).map Prod.fst ↔ x ∈ b) ∧ ((referenceTable b).map Prod.fst).Nodup ∧
    1 ≤ (referenceTable b).length ∧ (referenceTable b).length ≤ 256 ∧
    (∀ r ∈ referenceTable b, 1 ≤ r.2.length ∧ r.2.length ≤ 255) ∧
    (referenceTable b).Pairwise fun p q => ¬ p.2 <+: q.2 ∧ ¬ q.2 <+: p.2

/-- R227: the round trip. For every non-empty text of one-byte characters whose stream fits the two buffers, the compressor
emits bytes that the decompressor turns back into the text, from any state of either machine. -/
def Obligations.CompressThenDecompressGivesTheText : Prop :=
  ∀ (b : List Byte) (s d : State), b ≠ [] → (∀ x ∈ b, x.toNat < 128) →
    s.cfg.wf = true → d.cfg.wf = true → s.rstN = true → d.rstN = true →
    streamBits (referenceTable b) b ≤ 8 * s.cfg.outCapBytes →
    streamBits (referenceTable b) b ≤ 8 * d.cfg.inCapBytes →
    ∃ out, compress (BitVec.ofNat 32 b.length) b s = .emitted out ∧ decompress out d = .emitted b
end

