-- ==== Sys2Proof/Laws/Bits.lean ====
section
/-! SUPPORT. Bit sequences and the numbers they write (00_scope.md R8 and R9, 20_memory.md R62). -/

namespace Sys2Proof.Machine

@[simp] theorem length_bitsOf {w : Nat} (n : Nat) (v : BitVec w) : (bitsOf n v).length = n := by simp [bitsOf]

theorem getD_bitsOf {w : Nat} (n : Nat) (v : BitVec w) (k : Nat) :
    (bitsOf n v).getD k false = (decide (k < n) && v.getLsbD k) := by
  by_cases h : k < n <;> simp [bitsOf, List.getD_eq_getElem?_getD, h]

theorem ofBits_lt (b : Bits) : ofBits b < 2 ^ b.length := by
  induction b with
  | nil => simp [ofBits]
  | cons a b ih => cases a <;> simp [ofBits, pow_succ] <;> omega

/-- Bit k of the number is bit k of the sequence, and 0 beyond it. -/
theorem testBit_ofBits (b : Bits) (k : Nat) : (ofBits b).testBit k = b.getD k false := by
  induction b generalizing k with
  | nil => simp [ofBits]
  | cons a b ih =>
    cases k with
    | zero => cases a <;> simp [ofBits]
    | succ k =>
      have h : (a.toNat + 2 * ofBits b) / 2 = ofBits b := by cases a <;> simp; omega
      rw [ofBits, Nat.testBit_succ, h, ih, List.getD_cons_succ]

theorem getLsbD_ofNat_ofBits (w : Nat) (b : Bits) (k : Nat) :
    (BitVec.ofNat w (ofBits b)).getLsbD k = (decide (k < w) && b.getD k false) := by
  rw [BitVec.getLsbD_ofNat, testBit_ofBits]

/-- Two sequences of one length that agree bit by bit are equal. -/
theorem bits_ext {b c : Bits} (hl : b.length = c.length)
    (h : ∀ k < b.length, b.getD k false = c.getD k false) : b = c := by
  refine List.ext_getElem hl fun k h1 h2 => ?_
  have := h k h1
  simpa [List.getD_eq_getElem?_getD, h1, h2] using this

/-- The bits of a field are the bits of its value. -/
theorem bitsOf_ofNat_ofBits (b : Bits) : bitsOf b.length (BitVec.ofNat b.length (ofBits b)) = b := by
  refine bits_ext (by simp) fun k hk => ?_
  rw [length_bitsOf] at hk
  rw [getD_bitsOf, getLsbD_ofNat_ofBits]
  simp only [hk, decide_true, Bool.true_and]

/-- Reading a field's bits back gives the field. -/
theorem ofNat_ofBits_bitsOf {w : Nat} (v : BitVec w) : BitVec.ofNat w (ofBits (bitsOf w v)) = v := by
  refine BitVec.eq_of_getLsbD_eq fun i hi => ?_
  rw [getLsbD_ofNat_ofBits, getD_bitsOf]
  simp [hi]

/-- The number of a field's bits is the field's value. -/
theorem ofBits_bitsOf {w : Nat} (v : BitVec w) : ofBits (bitsOf w v) = v.toNat := by
  have h := congrArg BitVec.toNat (ofNat_ofBits_bitsOf v)
  have hlt := ofBits_lt (bitsOf w v)
  rw [length_bitsOf] at hlt
  rwa [BitVec.toNat_ofNat, Nat.mod_eq_of_lt hlt] at h

theorem bitsOf_succ_append {w : Nat} (n m : Nat) (v : BitVec w) :
    bitsOf (n + m) v = bitsOf n v ++ (List.range m).map fun j => v.getLsbD (n + j) := by
  simp [bitsOf, List.range_add]

/-- The bits of a command word, field by field (R91). -/
theorem getLsbD_commandWord (op n s : Byte) (i : Nat) :
    BitVec.getLsbD (0#8 ++ s ++ n ++ op : Word) i =
      if i < 8 then op.getLsbD i else if i < 16 then n.getLsbD (i - 8) else if i < 24 then s.getLsbD (i - 16)
      else false := by
  have h : BitVec.getLsbD (0#8 ++ s ++ n ++ op : BitVec (8 + 8 + 8 + 8)) i =
      if i < 8 then op.getLsbD i else if i - 8 < 8 then n.getLsbD (i - 8) else
        if i - 8 - 8 < 8 then s.getLsbD (i - 8 - 8) else (0#8).getLsbD (i - 8 - 8 - 8) := by
    simp only [BitVec.getLsbD_append]
  refine h.trans ?_
  rw [BitVec.getLsbD_zero, show i - 8 - 8 = i - 16 by omega]
  split_ifs <;> first | rfl | omega

end Sys2Proof.Machine
end

