-- ==== Sys2Proof/Laws/State.lean ====
section
/-! SUPPORT. Every field of the state after every named update of Machine/Ops.lean: one lemma each, so that no proof unfolds
a record update. -/

namespace Sys2Proof.Machine.State

/-! ## withArg -/

@[simp] theorem withArg_cfg (s : State) (v : Word) : (s.withArg v).cfg = s.cfg := rfl
@[simp] theorem withArg_arg (s : State) (v : Word) : (s.withArg v).arg = v := rfl
@[simp] theorem withArg_res (s : State) (v : Word) : (s.withArg v).res = s.res := rfl
@[simp] theorem withArg_err (s : State) (v : Word) : (s.withArg v).err = s.err := rfl
@[simp] theorem withArg_errOp (s : State) (v : Word) : (s.withArg v).errOp = s.errOp := rfl
@[simp] theorem withArg_obuf (s : State) (v : Word) : (s.withArg v).obuf = s.obuf := rfl
@[simp] theorem withArg_rbits (s : State) (v : Word) : (s.withArg v).rbits = s.rbits := rfl
@[simp] theorem withArg_ibuf (s : State) (v : Word) : (s.withArg v).ibuf = s.ibuf := rfl
@[simp] theorem withArg_tbl (s : State) (v : Word) : (s.withArg v).tbl = s.tbl := rfl
@[simp] theorem withArg_rstN (s : State) (v : Word) : (s.withArg v).rstN = s.rstN := rfl
@[simp] theorem withArg_inputs (s : State) (v : Word) : (s.withArg v).inputs = s.inputs := rfl
@[simp] theorem withArg_responses (s : State) (v : Word) : (s.withArg v).responses = s.responses := rfl

/-! ## withRes -/

@[simp] theorem withRes_cfg (s : State) (v : Word) : (s.withRes v).cfg = s.cfg := rfl
@[simp] theorem withRes_arg (s : State) (v : Word) : (s.withRes v).arg = s.arg := rfl
@[simp] theorem withRes_res (s : State) (v : Word) : (s.withRes v).res = v := rfl
@[simp] theorem withRes_err (s : State) (v : Word) : (s.withRes v).err = s.err := rfl
@[simp] theorem withRes_errOp (s : State) (v : Word) : (s.withRes v).errOp = s.errOp := rfl
@[simp] theorem withRes_obuf (s : State) (v : Word) : (s.withRes v).obuf = s.obuf := rfl
@[simp] theorem withRes_rbits (s : State) (v : Word) : (s.withRes v).rbits = s.rbits := rfl
@[simp] theorem withRes_ibuf (s : State) (v : Word) : (s.withRes v).ibuf = s.ibuf := rfl
@[simp] theorem withRes_tbl (s : State) (v : Word) : (s.withRes v).tbl = s.tbl := rfl
@[simp] theorem withRes_rstN (s : State) (v : Word) : (s.withRes v).rstN = s.rstN := rfl
@[simp] theorem withRes_inputs (s : State) (v : Word) : (s.withRes v).inputs = s.inputs := rfl
@[simp] theorem withRes_responses (s : State) (v : Word) : (s.withRes v).responses = s.responses := rfl

/-! ## withObuf -/

@[simp] theorem withObuf_cfg (s : State) (b : Bits) : (s.withObuf b).cfg = s.cfg := rfl
@[simp] theorem withObuf_arg (s : State) (b : Bits) : (s.withObuf b).arg = s.arg := rfl
@[simp] theorem withObuf_res (s : State) (b : Bits) : (s.withObuf b).res = s.res := rfl
@[simp] theorem withObuf_err (s : State) (b : Bits) : (s.withObuf b).err = s.err := rfl
@[simp] theorem withObuf_errOp (s : State) (b : Bits) : (s.withObuf b).errOp = s.errOp := rfl
@[simp] theorem withObuf_obuf (s : State) (b : Bits) : (s.withObuf b).obuf = b := rfl
@[simp] theorem withObuf_rbits (s : State) (b : Bits) : (s.withObuf b).rbits = s.rbits := rfl
@[simp] theorem withObuf_ibuf (s : State) (b : Bits) : (s.withObuf b).ibuf = s.ibuf := rfl
@[simp] theorem withObuf_tbl (s : State) (b : Bits) : (s.withObuf b).tbl = s.tbl := rfl
@[simp] theorem withObuf_rstN (s : State) (b : Bits) : (s.withObuf b).rstN = s.rstN := rfl
@[simp] theorem withObuf_inputs (s : State) (b : Bits) : (s.withObuf b).inputs = s.inputs := rfl
@[simp] theorem withObuf_responses (s : State) (b : Bits) : (s.withObuf b).responses = s.responses := rfl

/-! ## withRbits -/

@[simp] theorem withRbits_cfg (s : State) (p : Nat) : (s.withRbits p).cfg = s.cfg := rfl
@[simp] theorem withRbits_arg (s : State) (p : Nat) : (s.withRbits p).arg = s.arg := rfl
@[simp] theorem withRbits_res (s : State) (p : Nat) : (s.withRbits p).res = s.res := rfl
@[simp] theorem withRbits_err (s : State) (p : Nat) : (s.withRbits p).err = s.err := rfl
@[simp] theorem withRbits_errOp (s : State) (p : Nat) : (s.withRbits p).errOp = s.errOp := rfl
@[simp] theorem withRbits_obuf (s : State) (p : Nat) : (s.withRbits p).obuf = s.obuf := rfl
@[simp] theorem withRbits_rbits (s : State) (p : Nat) : (s.withRbits p).rbits = p := rfl
@[simp] theorem withRbits_ibuf (s : State) (p : Nat) : (s.withRbits p).ibuf = s.ibuf := rfl
@[simp] theorem withRbits_tbl (s : State) (p : Nat) : (s.withRbits p).tbl = s.tbl := rfl
@[simp] theorem withRbits_rstN (s : State) (p : Nat) : (s.withRbits p).rstN = s.rstN := rfl
@[simp] theorem withRbits_inputs (s : State) (p : Nat) : (s.withRbits p).inputs = s.inputs := rfl
@[simp] theorem withRbits_responses (s : State) (p : Nat) : (s.withRbits p).responses = s.responses := rfl

/-! ## withIbuf -/

@[simp] theorem withIbuf_cfg (s : State) (b : List Byte) : (s.withIbuf b).cfg = s.cfg := rfl
@[simp] theorem withIbuf_arg (s : State) (b : List Byte) : (s.withIbuf b).arg = s.arg := rfl
@[simp] theorem withIbuf_res (s : State) (b : List Byte) : (s.withIbuf b).res = s.res := rfl
@[simp] theorem withIbuf_err (s : State) (b : List Byte) : (s.withIbuf b).err = s.err := rfl
@[simp] theorem withIbuf_errOp (s : State) (b : List Byte) : (s.withIbuf b).errOp = s.errOp := rfl
@[simp] theorem withIbuf_obuf (s : State) (b : List Byte) : (s.withIbuf b).obuf = s.obuf := rfl
@[simp] theorem withIbuf_rbits (s : State) (b : List Byte) : (s.withIbuf b).rbits = s.rbits := rfl
@[simp] theorem withIbuf_ibuf (s : State) (b : List Byte) : (s.withIbuf b).ibuf = b := rfl
@[simp] theorem withIbuf_tbl (s : State) (b : List Byte) : (s.withIbuf b).tbl = s.tbl := rfl
@[simp] theorem withIbuf_rstN (s : State) (b : List Byte) : (s.withIbuf b).rstN = s.rstN := rfl
@[simp] theorem withIbuf_inputs (s : State) (b : List Byte) : (s.withIbuf b).inputs = s.inputs := rfl
@[simp] theorem withIbuf_responses (s : State) (b : List Byte) : (s.withIbuf b).responses = s.responses := rfl

/-! ## withTbl -/

@[simp] theorem withTbl_cfg (s : State) (t : List Row) : (s.withTbl t).cfg = s.cfg := rfl
@[simp] theorem withTbl_arg (s : State) (t : List Row) : (s.withTbl t).arg = s.arg := rfl
@[simp] theorem withTbl_res (s : State) (t : List Row) : (s.withTbl t).res = s.res := rfl
@[simp] theorem withTbl_err (s : State) (t : List Row) : (s.withTbl t).err = s.err := rfl
@[simp] theorem withTbl_errOp (s : State) (t : List Row) : (s.withTbl t).errOp = s.errOp := rfl
@[simp] theorem withTbl_obuf (s : State) (t : List Row) : (s.withTbl t).obuf = s.obuf := rfl
@[simp] theorem withTbl_rbits (s : State) (t : List Row) : (s.withTbl t).rbits = s.rbits := rfl
@[simp] theorem withTbl_ibuf (s : State) (t : List Row) : (s.withTbl t).ibuf = s.ibuf := rfl
@[simp] theorem withTbl_tbl (s : State) (t : List Row) : (s.withTbl t).tbl = t := rfl
@[simp] theorem withTbl_rstN (s : State) (t : List Row) : (s.withTbl t).rstN = s.rstN := rfl
@[simp] theorem withTbl_inputs (s : State) (t : List Row) : (s.withTbl t).inputs = s.inputs := rfl
@[simp] theorem withTbl_responses (s : State) (t : List Row) : (s.withTbl t).responses = s.responses := rfl

/-! ## withInputs -/

@[simp] theorem withInputs_cfg (s : State) (es : List HostEvent) : (s.withInputs es).cfg = s.cfg := rfl
@[simp] theorem withInputs_arg (s : State) (es : List HostEvent) : (s.withInputs es).arg = s.arg := rfl
@[simp] theorem withInputs_res (s : State) (es : List HostEvent) : (s.withInputs es).res = s.res := rfl
@[simp] theorem withInputs_err (s : State) (es : List HostEvent) : (s.withInputs es).err = s.err := rfl
@[simp] theorem withInputs_errOp (s : State) (es : List HostEvent) : (s.withInputs es).errOp = s.errOp := rfl
@[simp] theorem withInputs_obuf (s : State) (es : List HostEvent) : (s.withInputs es).obuf = s.obuf := rfl
@[simp] theorem withInputs_rbits (s : State) (es : List HostEvent) : (s.withInputs es).rbits = s.rbits := rfl
@[simp] theorem withInputs_ibuf (s : State) (es : List HostEvent) : (s.withInputs es).ibuf = s.ibuf := rfl
@[simp] theorem withInputs_tbl (s : State) (es : List HostEvent) : (s.withInputs es).tbl = s.tbl := rfl
@[simp] theorem withInputs_rstN (s : State) (es : List HostEvent) : (s.withInputs es).rstN = s.rstN := rfl
@[simp] theorem withInputs_inputs (s : State) (es : List HostEvent) : (s.withInputs es).inputs = es := rfl
@[simp] theorem withInputs_responses (s : State) (es : List HostEvent) : (s.withInputs es).responses = s.responses := rfl

/-! ## respond -/

@[simp] theorem respond_cfg (s : State) (v : Word) : (s.respond v).cfg = s.cfg := rfl
@[simp] theorem respond_arg (s : State) (v : Word) : (s.respond v).arg = s.arg := rfl
@[simp] theorem respond_res (s : State) (v : Word) : (s.respond v).res = s.res := rfl
@[simp] theorem respond_err (s : State) (v : Word) : (s.respond v).err = s.err := rfl
@[simp] theorem respond_errOp (s : State) (v : Word) : (s.respond v).errOp = s.errOp := rfl
@[simp] theorem respond_obuf (s : State) (v : Word) : (s.respond v).obuf = s.obuf := rfl
@[simp] theorem respond_rbits (s : State) (v : Word) : (s.respond v).rbits = s.rbits := rfl
@[simp] theorem respond_ibuf (s : State) (v : Word) : (s.respond v).ibuf = s.ibuf := rfl
@[simp] theorem respond_tbl (s : State) (v : Word) : (s.respond v).tbl = s.tbl := rfl
@[simp] theorem respond_rstN (s : State) (v : Word) : (s.respond v).rstN = s.rstN := rfl
@[simp] theorem respond_inputs (s : State) (v : Word) : (s.respond v).inputs = s.inputs := rfl
@[simp] theorem respond_responses (s : State) (v : Word) : (s.respond v).responses = v :: s.responses := rfl

/-! ## withRstN -/

@[simp] theorem withRstN_cfg (s : State) (l : Bool) : (s.withRstN l).cfg = s.cfg := rfl
@[simp] theorem withRstN_arg (s : State) (l : Bool) : (s.withRstN l).arg = s.arg := rfl
@[simp] theorem withRstN_res (s : State) (l : Bool) : (s.withRstN l).res = s.res := rfl
@[simp] theorem withRstN_err (s : State) (l : Bool) : (s.withRstN l).err = s.err := rfl
@[simp] theorem withRstN_errOp (s : State) (l : Bool) : (s.withRstN l).errOp = s.errOp := rfl
@[simp] theorem withRstN_obuf (s : State) (l : Bool) : (s.withRstN l).obuf = s.obuf := rfl
@[simp] theorem withRstN_rbits (s : State) (l : Bool) : (s.withRstN l).rbits = s.rbits := rfl
@[simp] theorem withRstN_ibuf (s : State) (l : Bool) : (s.withRstN l).ibuf = s.ibuf := rfl
@[simp] theorem withRstN_tbl (s : State) (l : Bool) : (s.withRstN l).tbl = s.tbl := rfl
@[simp] theorem withRstN_rstN (s : State) (l : Bool) : (s.withRstN l).rstN = l := rfl
@[simp] theorem withRstN_inputs (s : State) (l : Bool) : (s.withRstN l).inputs = s.inputs := rfl
@[simp] theorem withRstN_responses (s : State) (l : Bool) : (s.withRstN l).responses = s.responses := rfl

/-! ## raise -/

@[simp] theorem raise_cfg (s : State) (e : HcbError) (op : Byte) : (s.raise e op).cfg = s.cfg := rfl
@[simp] theorem raise_arg (s : State) (e : HcbError) (op : Byte) : (s.raise e op).arg = s.arg := rfl
@[simp] theorem raise_res (s : State) (e : HcbError) (op : Byte) : (s.raise e op).res = s.res := rfl
@[simp] theorem raise_err (s : State) (e : HcbError) (op : Byte) : (s.raise e op).err = e.code := rfl
@[simp] theorem raise_errOp (s : State) (e : HcbError) (op : Byte) : (s.raise e op).errOp = op := rfl
@[simp] theorem raise_obuf (s : State) (e : HcbError) (op : Byte) : (s.raise e op).obuf = s.obuf := rfl
@[simp] theorem raise_rbits (s : State) (e : HcbError) (op : Byte) : (s.raise e op).rbits = s.rbits := rfl
@[simp] theorem raise_ibuf (s : State) (e : HcbError) (op : Byte) : (s.raise e op).ibuf = s.ibuf := rfl
@[simp] theorem raise_tbl (s : State) (e : HcbError) (op : Byte) : (s.raise e op).tbl = s.tbl := rfl
@[simp] theorem raise_rstN (s : State) (e : HcbError) (op : Byte) : (s.raise e op).rstN = s.rstN := rfl
@[simp] theorem raise_inputs (s : State) (e : HcbError) (op : Byte) : (s.raise e op).inputs = s.inputs := rfl
@[simp] theorem raise_responses (s : State) (e : HcbError) (op : Byte) : (s.raise e op).responses = s.responses := rfl

/-! ## resetRegs -/

@[simp] theorem resetRegs_cfg (s : State) : (s.resetRegs).cfg = s.cfg := rfl
@[simp] theorem resetRegs_arg (s : State) : (s.resetRegs).arg = 0 := rfl
@[simp] theorem resetRegs_res (s : State) : (s.resetRegs).res = 0 := rfl
@[simp] theorem resetRegs_err (s : State) : (s.resetRegs).err = 0 := rfl
@[simp] theorem resetRegs_errOp (s : State) : (s.resetRegs).errOp = 0 := rfl
@[simp] theorem resetRegs_obuf (s : State) : (s.resetRegs).obuf = [] := rfl
@[simp] theorem resetRegs_rbits (s : State) : (s.resetRegs).rbits = 0 := rfl
@[simp] theorem resetRegs_ibuf (s : State) : (s.resetRegs).ibuf = [] := rfl
@[simp] theorem resetRegs_tbl (s : State) : (s.resetRegs).tbl = [] := rfl
@[simp] theorem resetRegs_rstN (s : State) : (s.resetRegs).rstN = s.rstN := rfl
@[simp] theorem resetRegs_inputs (s : State) : (s.resetRegs).inputs = s.inputs := rfl
@[simp] theorem resetRegs_responses (s : State) : (s.resetRegs).responses = s.responses := rfl

/-! ## appendBits -/

@[simp] theorem appendBits_cfg (s : State) (c : Bits) : (s.appendBits c).cfg = s.cfg := rfl
@[simp] theorem appendBits_arg (s : State) (c : Bits) : (s.appendBits c).arg = s.arg := rfl
@[simp] theorem appendBits_res (s : State) (c : Bits) : (s.appendBits c).res = s.res := rfl
@[simp] theorem appendBits_err (s : State) (c : Bits) : (s.appendBits c).err = s.err := rfl
@[simp] theorem appendBits_errOp (s : State) (c : Bits) : (s.appendBits c).errOp = s.errOp := rfl
@[simp] theorem appendBits_obuf (s : State) (c : Bits) : (s.appendBits c).obuf = s.obuf ++ c := rfl
@[simp] theorem appendBits_rbits (s : State) (c : Bits) : (s.appendBits c).rbits = s.rbits := rfl
@[simp] theorem appendBits_ibuf (s : State) (c : Bits) : (s.appendBits c).ibuf = s.ibuf := rfl
@[simp] theorem appendBits_tbl (s : State) (c : Bits) : (s.appendBits c).tbl = s.tbl := rfl
@[simp] theorem appendBits_rstN (s : State) (c : Bits) : (s.appendBits c).rstN = s.rstN := rfl
@[simp] theorem appendBits_inputs (s : State) (c : Bits) : (s.appendBits c).inputs = s.inputs := rfl
@[simp] theorem appendBits_responses (s : State) (c : Bits) : (s.appendBits c).responses = s.responses := rfl

end Sys2Proof.Machine.State
end

