-- ==== Sys2Proof/Laws/Ops.lean ====
section
/-! SUPPORT. What the shared operations of Machine/Ops.lean do, said once: the streams bit by bit, the checked accesses by
cases, and that every storage operation keeps Memory.wf. -/

namespace Sys2Proof.Machine

/-! ## The writer's stream -/

theorem outBit_ge (s : State) {k : Nat} (h : s.wbits ≤ k) : s.outBit k = false := by
  simp only [State.outBit, State.wbits] at *
  rw [List.getD_eq_getElem?_getD, List.getElem?_eq_none h, Option.getD_none]

theorem wbits_appendBits (s : State) (c : Bits) : (s.appendBits c).wbits = s.wbits + c.length := by
  simp [State.wbits]

/-- An append keeps the bits below WBITS. -/
theorem outBit_appendBits_lt (s : State) (c : Bits) {k : Nat} (h : k < s.wbits) :
    (s.appendBits c).outBit k = s.outBit k := by
  simp only [State.outBit, State.appendBits_obuf, State.wbits] at *
  rw [List.getD_append _ _ _ _ h]

/-- An append puts its bits from WBITS on. -/
theorem outBit_appendBits_ge (s : State) (c : Bits) (j : Nat) :
    (s.appendBits c).outBit (s.wbits + j) = c.getD j false := by
  simp only [State.outBit, State.appendBits_obuf, State.wbits]
  rw [List.getD_append_right _ _ _ _ (Nat.le_add_right _ _), Nat.add_sub_cancel_left]

/-- Bit b of a packed byte is the stream's bit (R61). -/
theorem getLsbD_outByte (s : State) (i b : Nat) (h : b < 8) : (s.outByte i).getLsbD b = s.outBit (8 * i + b) := by
  rw [State.outByte, getLsbD_ofNat_ofBits, List.getD_eq_getElem?_getD]
  simp [h]

/-! ## The reader's stream -/

@[simp] theorem length_inBits (s : State) (p n : Nat) : (s.inBits p n).length = n := by simp [State.inBits]

theorem getD_inBits (s : State) (p n k : Nat) :
    (s.inBits p n).getD k false = (decide (k < n) && s.inBit (p + k)) := by
  by_cases h : k < n <;> simp [State.inBits, List.getD_eq_getElem?_getD, h]

/-- A piece of the reader's stream is known by its bits. -/
theorem inBits_eq (s : State) (p : Nat) (b : Bits) (h : ∀ j < b.length, s.inBit (p + j) = b.getD j false) :
    s.inBits p b.length = b := by
  refine bits_ext (by simp) fun k hk => ?_
  rw [length_inBits] at hk
  rw [getD_inBits, ← h k hk]
  simp [hk]

theorem inBits_append (s : State) (p n m : Nat) : s.inBits p (n + m) = s.inBits p n ++ s.inBits (p + n) m := by
  simp [State.inBits, List.range_add, Nat.add_assoc]

/-! ## Checked accesses -/

theorem appendChecked_fits {op : Byte} {c : Bits} {s : State} (h : s.wbits + c.length ≤ s.cfg.outCapBits) :
    appendChecked op c s = .next (s.appendBits c) := by
  rw [appendChecked, if_neg (by omega)]

theorem appendChecked_full {op : Byte} {c : Bits} {s : State} (h : s.wbits + c.length > s.cfg.outCapBits) :
    appendChecked op c s = .next (s.raise .overflow op) := by
  rw [appendChecked, if_pos h]

/-- All a checked append can do. -/
theorem appendChecked_cases {op : Byte} {c : Bits} {s t : State} (h : appendChecked op c s = .next t) :
    (s.wbits + c.length > s.cfg.outCapBits ∧ t = s.raise .overflow op) ∨
    (s.wbits + c.length ≤ s.cfg.outCapBits ∧ t = s.appendBits c) := by
  rw [appendChecked] at h
  split at h <;> cases h
  · exact .inl ⟨‹_›, rfl⟩
  · exact .inr ⟨by omega, rfl⟩

theorem readChecked_enough {op : Byte} {n adv : Nat} {s : State} (h : n ≤ s.inRem) :
    readChecked op n adv s =
      .next ((s.withRes (BitVec.ofNat 32 (ofBits (s.inBits s.rbits n)))).withRbits (s.rbits + adv)) := by
  rw [readChecked, if_neg (by omega)]

theorem readChecked_short {op : Byte} {n adv : Nat} {s : State} (h : n > s.inRem) :
    readChecked op n adv s = .next (s.raise .underflow op) := by
  rw [readChecked, if_pos h]

/-- All a checked read can do. -/
theorem readChecked_cases {op : Byte} {n adv : Nat} {s t : State} (h : readChecked op n adv s = .next t) :
    (n > s.inRem ∧ t = s.raise .underflow op) ∨
    (n ≤ s.inRem ∧ t = (s.withRes (BitVec.ofNat 32 (ofBits (s.inBits s.rbits n)))).withRbits (s.rbits + adv)) := by
  rw [readChecked] at h
  split at h <;> cases h
  · exact .inl ⟨‹_›, rfl⟩
  · exact .inr ⟨by omega, rfl⟩

/-! ## Storage in form -/

/-- Memory.wf as a proposition. -/
theorem memory_wf_iff (s : State) : Memory.wf s = true ↔
    s.wbits ≤ s.cfg.outCapBits ∧ s.ilen ≤ s.cfg.inCapBytes ∧ s.rbits ≤ 8 * s.ilen ∧ s.tbln ≤ Config.maxRows ∧
    ∀ r ∈ s.tbl, r.wf = true := by
  simp [Memory.wf, List.all_eq_true, and_assoc]

theorem reset_memory_wf : Memory.wf State.reset = true := by decide

/-- An append that fits keeps the storage in form. -/
theorem appendBits_keeps_wf {s : State} {c : Bits} (hs : Memory.wf s = true)
    (h : s.wbits + c.length ≤ s.cfg.outCapBits) : Memory.wf (s.appendBits c) = true := by
  rw [memory_wf_iff] at *
  exact ⟨by rw [wbits_appendBits]; exact h, hs.2⟩

/-- Emptying the writer's stream keeps the storage in form. -/
theorem withObuf_nil_keeps_wf {s : State} (hs : Memory.wf s = true) : Memory.wf (s.withObuf []) = true := by
  rw [memory_wf_iff] at *
  exact ⟨Nat.zero_le _, hs.2⟩

/-- Moving RBITS within the stream keeps the storage in form. -/
theorem withRbits_keeps_wf {s : State} {p : Nat} (hs : Memory.wf s = true) (h : p ≤ 8 * s.ilen) :
    Memory.wf (s.withRbits p) = true := by
  rw [memory_wf_iff] at *
  exact ⟨hs.1, hs.2.1, h, hs.2.2.2⟩

/-- One more input byte within capacity keeps the storage in form. -/
theorem withIbuf_snoc_keeps_wf {s : State} {b : Byte} (hs : Memory.wf s = true) (h : s.ilen < s.cfg.inCapBytes) :
    Memory.wf (s.withIbuf (s.ibuf ++ [b])) = true := by
  rw [memory_wf_iff] at *
  refine ⟨hs.1, ?_, ?_, hs.2.2.2⟩ <;> simp [State.ilen] at * <;> omega

/-- A table of at most 256 rows in form keeps the storage in form. -/
theorem withTbl_keeps_wf {s : State} {t : List Row} (hs : Memory.wf s = true) (hl : t.length ≤ Config.maxRows)
    (ht : ∀ r ∈ t, r.wf = true) : Memory.wf (s.withTbl t) = true := by
  rw [memory_wf_iff] at *
  exact ⟨hs.1, hs.2.1, hs.2.2.1, hl, ht⟩

/-- Writing RES, ARG, the error record or the host's side touches no storage. -/
theorem registers_keep_wf (s : State) (v : Word) (e : HcbError) (op : Byte) (es : List HostEvent) :
    Memory.wf (s.withRes v) = Memory.wf s ∧ Memory.wf (s.withArg v) = Memory.wf s ∧
    Memory.wf (s.raise e op) = Memory.wf s ∧ Memory.wf (s.withInputs es) = Memory.wf s ∧
    Memory.wf (s.respond v) = Memory.wf s :=
  ⟨rfl, rfl, rfl, rfl, rfl⟩

/-- Reset leaves the storage in form, whatever it was. -/
theorem resetRegs_wf (s : State) : Memory.wf s.resetRegs = true := by
  simp [memory_wf_iff, State.wbits, State.ilen, State.tbln]

end Sys2Proof.Machine
end

