-- ==== Sys2Proof/Laws/Exec.lean ====
section
/-! SUPPORT. What a command can do, said once over all commands, and what the host's accesses do. -/

namespace Sys2Proof.Machine

/-! ## The table in the stream and the scan -/

/-- A failing read of rows names one of the two errors of R175. -/
theorem readRows_err {s : State} : ∀ {k p : Nat} {e}, s.readRows k p = .error e → e = .underflow ∨ e = .format
  | 0, p, e, h => by simp [State.readRows] at h
  | k+1, p, e, h => by
    simp only [State.readRows] at h
    split at h
    · rename_i e' he
      cases h
      unfold State.readRow at he
      repeat' split at he
      all_goals cases he <;> simp
    · rename_i r q hq
      split at h
      · rename_i e' he; cases h; exact readRows_err he
      · cases h

/-- A failing R_TABLE raises E_UNDERFLOW or E_FORMAT (R175). -/
theorem readTable_err {s : State} {p : Nat} {e} (h : s.readTable p = .error e) : e = .underflow ∨ e = .format := by
  unfold State.readTable at h
  split at h
  · cases h; simp
  · exact readRows_err h

/-- A failing scan of R_SYM raises E_UNDERFLOW or E_LOOKUP_DEC (R200). -/
theorem scan_err {s : State} : ∀ {l : List Row} {b : Bool} {e}, s.scan l b = .error e → e = .underflow ∨ e = .lookupDec
  | [], b, e, h => by cases b <;> simp [State.scan] at h <;> simp [h.symm]
  | r :: rs, b, e, h => by
    simp only [State.scan] at h
    split at h
    · exact scan_err h
    · split at h
      · cases h
      · exact scan_err h

/-- What a successful read of rows gives: that many complete rows, and a position within the stream. -/
theorem readRows_ok {s : State} : ∀ {k p rows q}, p ≤ 8 * s.ilen → s.readRows k p = .ok (rows, q) →
    rows.length = k ∧ q ≤ 8 * s.ilen ∧ p ≤ q ∧ ∀ r ∈ rows, r.len ≠ 0 ∧ r.code.length = r.len.toNat
  | 0, p, rows, q, hp, h => by simp [State.readRows] at h; obtain ⟨rfl, rfl⟩ := h; simp [hp]
  | k+1, p, rows, q, hp, h => by
    simp only [State.readRows] at h
    split at h
    · cases h
    · rename_i r z hz
      split at h
      · cases h
      · rename_i rs z' hz'
        cases h
        have hr : r.len ≠ 0 ∧ r.code.length = r.len.toNat ∧ z ≤ 8 * s.ilen ∧ p ≤ z := by
          unfold State.readRow at hz
          split at hz; · cases hz
          split at hz; · cases hz
          rename_i l hl
          split at hz; · cases hz
          rename_i hl0
          split at hz; · cases hz
          cases hz
          have hlt : l < 256 := by
            unfold State.getField at hl
            split at hl
            · cases hl
            · cases hl
              have := ofBits_lt (s.inBits (p+8) 8)
              simpa using this
          have : (BitVec.ofNat 8 l).toNat = l := by simp; omega
          refine ⟨?_, ?_, by omega, by omega⟩
          · intro h0
            have := congrArg BitVec.toNat h0
            rw [‹(BitVec.ofNat 8 l).toNat = l›] at this
            exact hl0 this
          · simp [Nat.mod_eq_of_lt hlt]
        obtain ⟨a, b, c, d⟩ := readRows_ok hr.2.2.1 hz'
        refine ⟨by simp [a], b, by omega, ?_⟩
        intro x hx
        rcases List.mem_cons.1 hx with rfl | hx
        · exact ⟨hr.1, hr.2.1⟩
        · exact d x hx

/-- What a successful R_TABLE reads: 1 to 256 complete rows, and a position within the stream. -/
theorem readTable_ok {s : State} {p rows q} (h : s.readTable p = .ok (rows, q)) :
    1 ≤ rows.length ∧ rows.length ≤ 256 ∧ q ≤ 8 * s.ilen ∧ ∀ r ∈ rows, r.len ≠ 0 ∧ r.code.length = r.len.toNat := by
  unfold State.readTable at h
  split at h; · cases h
  rename_i c hc
  unfold State.getField at hc
  split at hc
  · cases hc
  · cases hc
    rename_i hle
    obtain ⟨a,b,_,d⟩ := readRows_ok (by omega) h
    have := ofBits_lt (s.inBits p 8)
    simp at this
    exact ⟨by omega, by omega, b, d⟩

/-- The row R_SYM takes is a row of the table that the bits left can hold. -/
theorem scan_ok {s : State} : ∀ {l : List Row} {b : Bool} {r}, s.scan l b = .ok r → r ∈ l ∧ r.len.toNat ≤ s.inRem
  | [], b, r, h => by cases b <;> simp [State.scan] at h
  | x :: xs, b, r, h => by
    simp only [State.scan] at h
    split at h
    · exact ⟨List.mem_cons_of_mem _ (scan_ok h).1, (scan_ok h).2⟩
    · split at h
      · cases h; exact ⟨List.mem_cons_self, by omega⟩
      · exact ⟨List.mem_cons_of_mem _ (scan_ok h).1, (scan_ok h).2⟩

/-- TCOMP in terms of the rows (R33). -/
theorem complete_iff {s : State} : s.complete = true ↔ ∀ r ∈ s.tbl, r.code.length = r.len.toNat := by
  simp [State.complete, Row.complete, Row.fill]

/-! ## Every command -/

/-- `t` has the error record, ARG and everything outside HCB's storage of `s`. -/
abbrev Keeps (s t : State) : Prop :=
  t.err = s.err ∧ t.errOp = s.errOp ∧ t.cfg = s.cfg ∧ t.rstN = s.rstN ∧ t.arg = s.arg ∧ t.inputs = s.inputs ∧
  t.responses = s.responses

/-- What command `i` may have done when it answers `t`. -/
abbrev Did (i : Instr) (s t : State) : Prop :=
  Keeps s t ∨ (i = .sreset ∧ t = s.resetRegs) ∨ ∃ e, t = s.raise e i.opcode ∧ raisedBy e i.opcode = true

/-- What a command can do (R250, R254): it always answers a next state; it keeps the error record, ARG and everything outside
HCB's storage, or it is SRESET, or it raises an error its row of R251 allows and changes nothing else. -/
theorem exec_cases (i : Instr) (s : State) : ∃ t, exec i s = .next t ∧ Did i s t := by
  have app : ∀ c, raisedBy .overflow i.opcode = true → ∃ t, appendChecked i.opcode c s = .next t ∧ Did i s t := by
    intro c hr
    unfold appendChecked
    split
    · exact ⟨_, rfl, .inr (.inr ⟨_, rfl, hr⟩)⟩
    · exact ⟨_, rfl, .inl (by simp [Keeps])⟩
  have rd : ∀ n a, raisedBy .underflow i.opcode = true → ∃ t, readChecked i.opcode n a s = .next t ∧ Did i s t := by
    intro n a hr
    unfold readChecked
    split
    · exact ⟨_, rfl, .inr (.inr ⟨_, rfl, hr⟩)⟩
    · exact ⟨_, rfl, .inl (by simp [Keeps])⟩
  cases i with
  | nop => exact ⟨_, rfl, .inl (by simp [Keeps])⟩
  | sreset => exact ⟨_, rfl, .inr (.inl ⟨rfl, rfl⟩)⟩
  | tClr => exact ⟨_, rfl, .inl (by simp [Keeps])⟩
  | tRow a b =>
    simp only [exec, execTRow]
    split
    · exact ⟨_, rfl, .inr (.inr ⟨_, rfl, rfl⟩)⟩
    · split
      · exact ⟨_, rfl, .inr (.inr ⟨_, rfl, rfl⟩)⟩
      · exact ⟨_, rfl, .inl (by simp [Keeps])⟩
  | tCode n =>
    simp only [exec, execTCode]
    split
    · exact ⟨_, rfl, .inr (.inr ⟨_, rfl, rfl⟩)⟩
    · split
      · exact ⟨_, rfl, .inr (.inr ⟨_, rfl, rfl⟩)⟩
      · exact ⟨_, rfl, .inl (by simp [Keeps])⟩
  | tRdrow =>
    simp only [exec, execTRdrow]
    split
    · exact ⟨_, rfl, .inr (.inr ⟨_, rfl, rfl⟩)⟩
    · exact ⟨_, rfl, .inl (by simp [Keeps])⟩
  | wTable =>
    simp only [exec, execWTable]
    split
    · exact ⟨_, rfl, .inr (.inr ⟨_, rfl, rfl⟩)⟩
    · split
      · exact ⟨_, rfl, .inr (.inr ⟨_, rfl, rfl⟩)⟩
      · exact app _ rfl
  | rTable =>
    simp only [exec, execRTable]
    split
    · rename_i e he
      refine ⟨_, rfl, .inr (.inr ⟨_, rfl, ?_⟩)⟩
      rcases readTable_err he with rfl | rfl <;> rfl
    · exact ⟨_, rfl, .inl (by simp [Keeps])⟩
  | wClr => exact ⟨_, rfl, .inl (by simp [Keeps])⟩
  | wBits n => exact app _ rfl
  | wInt8 => exact app _ rfl
  | wInt32 => exact app _ rfl
  | wSym x =>
    simp only [exec, execWSym]
    split
    · exact ⟨_, rfl, .inr (.inr ⟨_, rfl, rfl⟩)⟩
    · split
      · exact ⟨_, rfl, .inr (.inr ⟨_, rfl, rfl⟩)⟩
      · exact app _ rfl
  | wLen => exact ⟨_, rfl, .inl (by simp [Keeps])⟩
  | wGetb =>
    simp only [exec, execWGetb]
    split
    · exact ⟨_, rfl, .inr (.inr ⟨_, rfl, rfl⟩)⟩
    · exact ⟨_, rfl, .inl (by simp [Keeps])⟩
  | rClr => exact ⟨_, rfl, .inl (by simp [Keeps])⟩
  | rPutb =>
    simp only [exec, execRPutb]
    split
    · exact ⟨_, rfl, .inr (.inr ⟨_, rfl, rfl⟩)⟩
    · exact ⟨_, rfl, .inl (by simp [Keeps])⟩
  | rPeek n => exact rd _ _ rfl
  | rTake n => exact rd _ _ rfl
  | rInt8 => exact rd _ _ rfl
  | rInt32 => exact rd _ _ rfl
  | rSym =>
    simp only [exec, execRSym]
    split
    · exact ⟨_, rfl, .inr (.inr ⟨_, rfl, rfl⟩)⟩
    · split
      · rename_i e he
        refine ⟨_, rfl, .inr (.inr ⟨_, rfl, ?_⟩)⟩
        rcases scan_err he with rfl | rfl <;> rfl
      · exact ⟨_, rfl, .inl (by simp [Keeps])⟩

/-- Every command keeps the storage in form (R31, R39). -/
theorem exec_keeps_wf (i : Instr) (s t : State) (hs : Memory.wf s = true) (h : exec i s = .next t) : Memory.wf t = true := by
  have hs' := (memory_wf_iff s).1 hs
  have app : ∀ op c, appendChecked op c s = .next t → Memory.wf t = true := by
    intro op c h
    rcases appendChecked_cases h with ⟨_, rfl⟩ | ⟨hf, rfl⟩
    · exact hs
    · exact appendBits_keeps_wf hs hf
  have rd : ∀ op n a, a ≤ n → readChecked op n a s = .next t → Memory.wf t = true := by
    intro op n a ha h
    rcases readChecked_cases h with ⟨_, rfl⟩ | ⟨hf, rfl⟩
    · exact hs
    · apply withRbits_keeps_wf (s := s.withRes _) hs
      simp only [State.inRem] at hf
      show s.rbits + a ≤ 8 * s.ilen
      omega
  cases i with
  | nop => cases h; exact hs
  | sreset => cases h; exact resetRegs_wf s
  | tClr => cases h; exact withTbl_keeps_wf hs (by simp) (by simp)
  | tRow a b =>
    simp only [exec, execTRow] at h
    split_ifs at h with h1 h2
    · cases h; exact hs
    · cases h; exact hs
    · cases h
      refine withTbl_keeps_wf hs ?_ ?_
      · simp [State.tbln] at *; omega
      · intro r hr
        rcases List.mem_append.1 hr with hr | hr
        · exact hs'.2.2.2.2 r hr
        · rw [List.mem_singleton] at hr; subst hr
          have : b.toNat ≠ 0 := fun h => h1 (BitVec.eq_of_toNat_eq h)
          simp [Row.wf, Row.fill]; omega
  | tCode n =>
    simp only [exec, execTCode] at h
    split at h
    · cases h; exact hs
    · rename_i r hr
      split_ifs at h with h1
      · cases h; exact hs
      · cases h
        have hm : r ∈ s.tbl := List.mem_of_getLast? hr
        refine withTbl_keeps_wf hs ?_ ?_
        · have := hs'.2.2.2.1
          have h0 : 0 < s.tbl.length := List.length_pos_of_mem hm
          simp [State.tbln] at *; omega
        · intro x hx
          rcases List.mem_append.1 hx with hx | hx
          · exact hs'.2.2.2.2 x (List.mem_of_mem_dropLast hx)
          · rw [List.mem_singleton] at hx; subst hx
            have := hs'.2.2.2.2 r hm
            simp [Row.wf, Row.fill, State.argChunk, count] at *; omega
  | tRdrow =>
    simp only [exec, execTRdrow] at h
    split at h <;> (cases h; exact hs)
  | wTable =>
    simp only [exec, execWTable] at h
    split_ifs at h
    · cases h; exact hs
    · cases h; exact hs
    · exact app _ _ h
  | rTable =>
    simp only [exec, execRTable] at h
    split at h
    · cases h; exact hs
    · rename_i rows p hp
      cases h
      obtain ⟨a,b,c,d⟩ := readTable_ok hp
      have : Memory.wf (s.withTbl rows) = true := withTbl_keeps_wf hs b (fun r hr => by
        have := d r hr
        have h0 : r.len.toNat ≠ 0 := fun h => this.1 (BitVec.eq_of_toNat_eq h)
        rw [Row.wf, Row.fill, this.2]; simp; omega)
      exact withRbits_keeps_wf (s := s.withTbl rows) this c
  | wClr => cases h; exact withObuf_nil_keeps_wf hs
  | wBits n => exact app _ _ h
  | wInt8 => exact app _ _ h
  | wInt32 => exact app _ _ h
  | wSym x =>
    simp only [exec, execWSym] at h
    split_ifs at h
    · cases h; exact hs
    · split at h
      · cases h; exact hs
      · exact app _ _ h
  | wLen => cases h; exact hs
  | wGetb =>
    simp only [exec, execWGetb] at h
    generalize s.outByte s.argIndex = q at h
    split_ifs at h <;> (cases h; exact hs)
  | rClr =>
    cases h
    rw [memory_wf_iff]
    exact ⟨hs'.1, Nat.zero_le _, Nat.zero_le _, hs'.2.2.2⟩
  | rPutb =>
    simp only [exec, execRPutb] at h
    split_ifs at h with h1
    · cases h; exact hs
    · cases h; exact withIbuf_snoc_keeps_wf hs (lt_of_le_of_ne hs'.2.1 h1)
  | rPeek n => exact rd _ _ _ (Nat.zero_le _) h
  | rTake n => exact rd _ _ _ le_rfl h
  | rInt8 => exact rd _ _ _ le_rfl h
  | rInt32 => exact rd _ _ _ le_rfl h
  | rSym =>
    simp only [exec, execRSym] at h
    split_ifs at h
    · cases h; exact hs
    · split at h
      · cases h; exact hs
      · rename_i r hr
        cases h
        have := (scan_ok hr).2
        simp only [State.inRem] at this
        have h2 := hs'.2.2.1
        exact withRbits_keeps_wf (s := s) (p := s.rbits + r.len.toNat) hs (by omega)

/-! ## The host's accesses -/

/-- A CMD write out of reset is the dispatch of its word (R72). -/
theorem hostEvent_cmd (w : Word) (s : State) (h : s.rstN = true) : hostEvent (cmdEvent w) s = dispatchWord w s := by
  show writeReg .cmd w s = _
  simp [writeReg, h]

/-- An ARG write out of reset sets ARG (R72). -/
theorem hostEvent_arg (v : Word) (s : State) (h : s.rstN = true) : hostEvent (argEvent v) s = .next (s.withArg v) := by
  show writeReg .arg v s = _
  rw [writeReg, if_pos h]

/-- A register read out of reset returns the register's value (R72). -/
theorem hostEvent_read (r : Reg) (s : State) (h : s.rstN = true) :
    hostEvent (readEvent r) s = .next (s.respond (regValue r s)) := by
  have : accessReg r.offset 4 = .ok r := by cases r <;> decide
  simp [readEvent, hostEvent, this, readReg, h]

/-- The host's events one list after the other. -/
theorem runEvents_append (a b : List HostEvent) (s : State) :
    runEvents (a ++ b) s =
      match runEvents a s with
      | .next t => runEvents b t
      | .fault f => .fault f
      | .refused r => .refused r := by
  induction a generalizing s with
  | nil => rfl
  | cons e a ih =>
    simp only [List.cons_append, runEvents]
    cases hostEvent e s <;> simp [ih]

end Sys2Proof.Machine
end

