-- ==== Sys2Proof/Laws/PerInstr.lean ====
section
/-! SUPPORT. Facts said for every command, one lemma a constructor: its word has its OP in bits [7:0], N in [15:8], S in
[23:16] and RSV = 0 (30_encoding.md R91, R94). -/

namespace Sys2Proof.Laws.WordFields

open Sys2Proof.Machine

/-- The four fields of a command's word. -/
def Statement (i : Instr) : Prop :=
  opField (encode i) = i.opcode ∧ nField (encode i) = i.nOperand ∧ sField (encode i) = i.sOperand ∧
  rsvField (encode i) = 0

theorem fields_of_append (op n s : Byte) :
    opField (0#8 ++ s ++ n ++ op) = op ∧ nField (0#8 ++ s ++ n ++ op) = n ∧ sField (0#8 ++ s ++ n ++ op) = s ∧
    rsvField (0#8 ++ s ++ n ++ op) = 0 := by
  refine ⟨?_, ?_, ?_, ?_⟩ <;> refine BitVec.eq_of_getLsbD_eq fun i hi => ?_
  · rw [opField, BitVec.getLsbD_extractLsb', getLsbD_commandWord]
    simp [hi]
  · rw [nField, BitVec.getLsbD_extractLsb', getLsbD_commandWord]
    simp [hi, show 8 + i < 16 by omega]
  · rw [sField, BitVec.getLsbD_extractLsb', getLsbD_commandWord]
    simp [hi, show ¬ 16 + i < 8 by omega, show 16 + i < 24 by omega]
  · rw [rsvField, BitVec.getLsbD_extractLsb', getLsbD_commandWord]
    simp [show ¬ 24 + i < 8 by omega, show ¬ 24 + i < 16 by omega]

theorem nop : Statement .nop := fields_of_append _ _ _

theorem sreset : Statement .sreset := fields_of_append _ _ _

theorem tClr : Statement .tClr := fields_of_append _ _ _

theorem tRow (sym len : Byte) : Statement (.tRow sym len) := fields_of_append _ _ _

theorem tCode (n : Byte) : Statement (.tCode n) := fields_of_append _ _ _

theorem tRdrow : Statement .tRdrow := fields_of_append _ _ _

theorem wTable : Statement .wTable := fields_of_append _ _ _

theorem rTable : Statement .rTable := fields_of_append _ _ _

theorem wClr : Statement .wClr := fields_of_append _ _ _

theorem wBits (n : Byte) : Statement (.wBits n) := fields_of_append _ _ _

theorem wInt8 : Statement .wInt8 := fields_of_append _ _ _

theorem wInt32 : Statement .wInt32 := fields_of_append _ _ _

theorem wSym (sym : Byte) : Statement (.wSym sym) := fields_of_append _ _ _

theorem wLen : Statement .wLen := fields_of_append _ _ _

theorem wGetb : Statement .wGetb := fields_of_append _ _ _

theorem rClr : Statement .rClr := fields_of_append _ _ _

theorem rPutb : Statement .rPutb := fields_of_append _ _ _

theorem rPeek (n : Byte) : Statement (.rPeek n) := fields_of_append _ _ _

theorem rTake (n : Byte) : Statement (.rTake n) := fields_of_append _ _ _

theorem rInt8 : Statement .rInt8 := fields_of_append _ _ _

theorem rInt32 : Statement .rInt32 := fields_of_append _ _ _

theorem rSym : Statement .rSym := fields_of_append _ _ _

end Sys2Proof.Laws.WordFields
end

