-- ==== Sys2Proof/Tests/Slice0.lean ====
section
/-! SUPPORT. The model's own tests. The expected results are those of 95_test_vectors.md (V-…), or worked out by hand from
the rule a docstring names. The second part has one witness for each obligation that has hypotheses: a concrete input that
meets them, at the boundary of each clause. -/

open Sys2Proof Sys2Proof.Machine Sys2Proof.Claims

namespace Sys2Proof.Tests

/-! ## Helpers -/

/-- The next state of a result. -/
def nextOf : Result → Option State
  | .next s => some s
  | .fault _ => none
  | .refused _ => none

/-- One command from `s`: the parts of the next state that `f` picks. -/
def after {α : Type} (i : Instr) (s : State) (f : State → α) : Option α := (nextOf (exec i s)).map f

/-- One host event from `s`. -/
def afterEvent {α : Type} (e : HostEvent) (s : State) (f : State → α) : Option α := (nextOf (hostEvent e s)).map f

/-- STATUS after CMD is written with each word at reset. -/
def statusOf (w : Word) : Option Word := afterEvent (cmdEvent w) State.reset State.status

/-- The packed stream (R106). -/
def packed (s : State) : List Byte := (List.range (ceil8 s.wbits)).map s.outByte

/-- The reset state with capacities of `o` and `i` bytes. -/
def cap (o i : Nat) : State := { State.reset with cfg := ⟨o, i⟩ }

/-- The reset state with the writer's stream `b`. -/
def writing (b : Bits) : State := State.reset.withObuf b

/-- The reset state with the reader's stream `b` at position `p`. -/
def reading (b : List Byte) (p : Nat) : State := (State.reset.withIbuf b).withRbits p

/-- The reset state with the table `t`. -/
def tabled (t : List Row) : State := State.reset.withTbl t

/-- A state that is blocked by V-CT-6. -/
def blocked : State := State.reset.raise .illegal 0x21

/-- The complete row ('b', "01"). -/
def rowB : Row := ⟨0x62, 2, [false, true]⟩

/-- The complete row ('a', "0"), a prefix of `rowB`. -/
def rowA : Row := ⟨0x61, 1, [false]⟩

/-- The complete row ('c', "1"). -/
def rowC : Row := ⟨0x63, 1, [true]⟩

/-- An incomplete row. -/
def rowOpen : Row := ⟨0x61, 3, [true, true]⟩

/-! ## Well-formedness (R93): the check refuses N > 32 in each chunk command -/

theorem test_wf_refuses_wBits_33 : Instr.wf (.wBits 33) = false := by decide
theorem test_wf_refuses_tCode_33 : Instr.wf (.tCode 33) = false := by decide
theorem test_wf_refuses_rPeek_33 : Instr.wf (.rPeek 33) = false := by decide
theorem test_wf_refuses_rTake_255 : Instr.wf (.rTake 255) = false := by decide
theorem test_wf_accepts_the_bounds : Instr.wf (.wBits 32) = true ∧ Instr.wf (.rTake 0) = true ∧
    Instr.wf (.tRow 0xFF 0xFF) = true := by decide

/-- The words of the refused terms are illegal. -/
theorem test_decode_refuses_ill_formed :
    decode (encode (.wBits 33)) = .error .countTooLarge ∧ decode (encode (.tCode 33)) = .error .countTooLarge ∧
    decode (encode (.rPeek 33)) = .error .countTooLarge ∧ decode (encode (.rTake 255)) = .error .countTooLarge := by
  decide

/-! ## Decoding: words written out bit by bit from R91 and R95, RSV S N OP -/

theorem test_decode_control :
    decode 0b00000000_00000000_00000000_00000000#32 = .ok .nop ∧
    decode 0b00000000_00000000_00000000_00000001#32 = .ok .sreset := by decide

theorem test_decode_table :
    decode 0b00000000_00000000_00000000_00010000#32 = .ok .tClr ∧
    decode 0b00000000_01100010_00000001_00010001#32 = .ok (.tRow 0x62 1) ∧
    decode 0b00000000_00000000_00000011_00010010#32 = .ok (.tCode 3) ∧
    decode 0b00000000_00000000_00000000_00010011#32 = .ok .tRdrow ∧
    decode 0b00000000_00000000_00000000_00010100#32 = .ok .wTable ∧
    decode 0b00000000_00000000_00000000_00010101#32 = .ok .rTable := by decide

theorem test_decode_writer :
    decode 0b00000000_00000000_00000000_00100000#32 = .ok .wClr ∧
    decode 0b00000000_00000000_00100000_00100001#32 = .ok (.wBits 32) ∧
    decode 0b00000000_00000000_00000000_00100010#32 = .ok .wInt8 ∧
    decode 0b00000000_00000000_00000000_00100011#32 = .ok .wInt32 ∧
    decode 0b00000000_01100001_00000000_00100100#32 = .ok (.wSym 0x61) ∧
    decode 0b00000000_00000000_00000000_00100101#32 = .ok .wLen ∧
    decode 0b00000000_00000000_00000000_00100110#32 = .ok .wGetb := by decide

theorem test_decode_reader :
    decode 0b00000000_00000000_00000000_00110000#32 = .ok .rClr ∧
    decode 0b00000000_00000000_00000000_00110001#32 = .ok .rPutb ∧
    decode 0b00000000_00000000_00000101_00110010#32 = .ok (.rPeek 5) ∧
    decode 0b00000000_00000000_00000111_00110011#32 = .ok (.rTake 7) ∧
    decode 0b00000000_00000000_00000000_00110100#32 = .ok .rInt8 ∧
    decode 0b00000000_00000000_00000000_00110101#32 = .ok .rInt32 ∧
    decode 0b00000000_00000000_00000000_00110110#32 = .ok .rSym := by decide

/-- V-CT-3 to V-CT-11 and V-CT-14: STATUS after an illegal word, and after the legal W_BITS with N = 32. -/
theorem test_illegal_words :
    [0x00000002, 0x00000120, 0x01000020, 0x00002121, 0x00002132, 0x00010025, 0x00000101, 0xFFFFFFFF, 0x00000037,
      0x00002021].map statusOf =
    [0x00010205, 0x00012005, 0x00012005, 0x00012105, 0x00013205, 0x00012505, 0x00010105, 0x0001FF05, 0x00013705,
      0x00010000].map some := by decide

/-! ## Control -/

/-- V-CT-1. -/
theorem test_nop : after .nop (reading [7] 3) id = some (reading [7] 3) := by decide

/-- V-CT-2. -/
theorem test_sreset : after .sreset (((tabled [rowA]).raise .lookupDec 0x36).withArg 7) (fun t =>
    (t.status, t.arg, t.tbln)) = some (0x00010000, 0, 0) := by decide

/-- V-CT-12: a blocked machine ignores W_INT8, NOP and an illegal word. -/
theorem test_blocked_ignores : ([0x22, 0x00, 0x101].map fun w => afterEvent (cmdEvent w) blocked id) =
    [some blocked, some blocked, some blocked] := by decide

/-- V-CT-12: a blocked machine takes a write of ARG. -/
theorem test_blocked_takes_arg : afterEvent (argEvent 7) blocked State.arg = some 7 := by decide

/-- V-CT-13. -/
theorem test_blocked_sreset : afterEvent (cmdEvent 1) (blocked.withArg 7) (fun t => (t.status, t.arg)) =
    some (0x00010000, 0) := by decide

/-! ## Table -/

/-- R170. -/
theorem test_tClr : after .tClr (tabled [rowOpen]) (fun t => (t.tbln, t.status)) = some (0, 0x00010000) := by decide

/-- V-TB-1. -/
theorem test_tRow : after (.tRow 0x62 1) State.reset (fun t => (t.tbl, t.status)) =
    some ([⟨0x62, 1, []⟩], 0x00000000) := by decide

/-- V-TB-5: a zero length comes before a full table. -/
theorem test_tRow_format_first : after (.tRow 0 0) (tabled (List.replicate 256 rowA)) State.status =
    some 0x00011108 := by decide +kernel

/-- V-TB-2. -/
theorem test_tCode : after (.tCode 3) ((tabled [⟨0x63, 3, []⟩]).withArg 1) (fun t => (t.tbl, t.status)) =
    some ([⟨0x63, 3, [true, false, false]⟩], 0x00010000) := by decide

/-- V-TB-7. -/
theorem test_tCode_overflow : after (.tCode 2) (tabled [rowOpen]) (fun t => (t.tbl, t.status)) =
    some ([rowOpen], 0x00001206) := by decide

/-- V-TB-2. -/
theorem test_tRdrow : after .tRdrow (tabled [⟨0x63, 3, [true, false, false]⟩]) State.res = some 0x00030363 := by decide

/-- V-TB-9. -/
theorem test_tRdrow_range : after .tRdrow State.reset State.status = some 0x00011309 := by decide

/-- V-TB-13. -/
theorem test_wTable : after .wTable ((cap 4 4).withTbl [⟨0x7A, 1, [false]⟩]) (fun t => (t.wbits, packed t)) =
    some (25, [0x00, 0x7A, 0x01, 0x00]) := by decide

/-- V-TB-11. -/
theorem test_wTable_incomplete : after .wTable (tabled [⟨0x61, 2, [false]⟩]) (fun t => (t.wbits, t.status)) =
    some (0, 0x00001407) := by decide

/-- V-TB-19. -/
theorem test_rTable : after .rTable ((reading [0x00, 0x7A, 0x01, 0x00] 0).withTbl [⟨0x61, 1, []⟩]) (fun t =>
    (t.tbl, t.res, t.rbits, t.status)) = some ([⟨0x7A, 1, [false]⟩], 1, 25, 0x00010000) := by decide

/-- V-TB-17: row 0's zero length comes before row 1's missing bits. -/
theorem test_rTable_format_first : after .rTable (reading [0x01, 0x61, 0x00] 0) (fun t => (t.rbits, t.status)) =
    some (0, 0x00011508) := by decide

/-! ## Writer and encode -/

/-- V-WR-12. -/
theorem test_wClr : after .wClr (writing [true, true]) (fun t => (t.wbits, packed t)) = some (0, []) := by decide

/-- V-WR-1. -/
theorem test_wBits : after (.wBits 3) (State.reset.withArg 0x5) (fun t => (t.wbits, packed t)) = some (3, [0x05]) := by
  decide

/-- V-WR-10. -/
theorem test_wBits_overflow : after (.wBits 1) ((cap 1 1).withObuf (bitsOf 8 (0xAB : Byte))) (fun t =>
    (t.status, t.wbits, packed t)) = some (0x00012106, 8, [0xAB]) := by decide

/-- V-WR-2. -/
theorem test_wInt8 : after .wInt8 ((writing [true, false, true]).withArg 0xFF) (fun t => (t.wbits, packed t)) =
    some (11, [0xFD, 0x07]) := by decide

/-- V-WR-11. -/
theorem test_wInt8_overflow : after .wInt8 ((cap 1 1).withObuf (List.replicate 7 false)) (fun t => (t.status, t.wbits)) =
    some (0x00012206, 7) := by decide

/-- V-WR-3. -/
theorem test_wInt32 : after .wInt32 (State.reset.withArg 0x12345678) (fun t => (t.wbits, packed t)) =
    some (32, [0x78, 0x56, 0x34, 0x12]) := by decide

/-- V-EN-5: the least-index row. -/
theorem test_wSym : after (.wSym 0x61) (tabled [⟨0x61, 1, [true]⟩, ⟨0x61, 2, [false, false]⟩]) (fun t =>
    (t.wbits, packed t)) = some (1, [0x01]) := by decide

/-- V-EN-4: an incomplete table comes before the lookup. -/
theorem test_wSym_incomplete_first : after (.wSym 0x62) (tabled [⟨0x61, 2, []⟩]) State.status = some 0x00002407 := by
  decide

/-- V-WR-7. -/
theorem test_wLen : after .wLen (writing (List.replicate 9 true)) State.res = some 2 := by decide

/-- V-WR-8. -/
theorem test_wGetb : after .wGetb ((writing (List.replicate 9 true)).withArg 1) State.res = some 1 := by decide

/-- V-WR-9. -/
theorem test_wGetb_range : after .wGetb State.reset (fun t => (t.res, t.status)) = some (0, 0x00012609) := by decide

/-! ## Reader and decode -/

/-- V-RD-14. -/
theorem test_rClr : after .rClr (reading [1, 2] 9) (fun t => (t.ilen, t.rbits)) = some (0, 0) := by decide

/-- V-RD-11: ARG[31:8] is ignored. -/
theorem test_rPutb : after .rPutb ((cap 1 1).withArg 0x1AB) State.ibuf = some [0xAB] := by decide

/-- V-RD-11. -/
theorem test_rPutb_overflow : after .rPutb ((cap 1 1).withIbuf [0xAB]) (fun t => (t.status, t.ilen)) =
    some (0x00013106, 1) := by decide

/-- V-RD-2. -/
theorem test_rPeek : after (.rPeek 5) (reading [0xC2] 3) (fun t => (t.res, t.rbits)) = some (0x18, 3) := by decide

/-- V-RD-3. -/
theorem test_rPeek_underflow : after (.rPeek 9) (reading [0xC2] 0) State.status = some 0x00013203 := by decide

/-- V-RD-7. -/
theorem test_rTake : after (.rTake 32) (reading [0x78, 0x56, 0x34, 0x12, 0x9A] 4) (fun t => (t.res, t.rbits)) =
    some (0xA1234567, 36) := by decide

/-- V-RD-5. -/
theorem test_rTake_underflow : after (.rTake 1) State.reset State.status = some 0x00013303 := by decide

/-- V-RD-9. -/
theorem test_rInt8 : after .rInt8 (reading [0xF0, 0x0F] 4) (fun t => (t.res, t.rbits)) = some (0xFF, 12) := by decide

/-- V-RD-10. -/
theorem test_rInt8_underflow : after .rInt8 (reading [0x80] 7) (fun t => (t.status, t.rbits)) =
    some (0x00013403, 7) := by decide

/-- V-RD-6. -/
theorem test_rInt32 : after .rInt32 (reading [0xFF, 0xFF, 0xFF, 0xFF] 0) (fun t => (t.res, t.rbits)) =
    some (0xFFFFFFFF, 32) := by decide

/-- V-RD-8. -/
theorem test_rInt32_underflow : after .rInt32 (reading [0x78, 0x56, 0x34] 0) State.status = some 0x00013503 := by decide

/-- V-DEC-5: the first row in order, not the shortest. -/
theorem test_rSym : after .rSym ((reading [0x02] 1).withTbl [⟨0x62, 2, [true, false]⟩, ⟨0x61, 1, [true]⟩]) (fun t =>
    (t.res, t.rbits)) = some (0x62, 3) := by decide

/-- V-DEC-9: a row longer than the bits that remain is skipped and makes the failure E_UNDERFLOW. -/
theorem test_rSym_underflow : after .rSym ((reading [0x00] 6).withTbl [⟨0x61, 3, [false, false, false]⟩, ⟨0x62, 1, [true]⟩])
    (fun t => (t.status, t.rbits)) = some (0x00013603, 6) := by decide

/-! ## Host port, step and host software -/

/-- R38: a read of STATUS at reset gives 0x00010000. -/
theorem test_read_status : afterEvent (readEvent .status) State.reset State.responses = some [0x00010000] := by decide

/-- R71: an 8-bit access, an unaligned one and one outside the window are refused. -/
theorem test_refused_accesses :
    [HostEvent.read 0x00 1, .write 0x02 4 0, .read 0x20 4].map (fun e => nextOf (hostEvent e State.reset)) =
    [none, none, none] := by decide

/-- R280: a write while `rst_n` is low has no effect. -/
theorem test_write_in_reset : afterEvent (argEvent 7) (State.reset.withRstN false) State.arg = some 0 := by decide

/-- The word of `t_row 'a', 1` (P1) placed for the fetch runs in the next step. -/
theorem test_step_runs_the_word : (nextOf (step (State.reset.withFetchWord 32 0x00610111))).map State.tbl =
    some [⟨0x61, 1, []⟩] := by decide

/-- R98: lines of P1 and P4 give the events of their tables. -/
theorem test_assembler : (assemble ["t_row 'b', 1", "w_bits 3, 0x5 ; P4 line 1", "read STATUS"]).map programEvents =
    some [.write 0 4 0x00620111, .write 4 4 5, .write 0 4 0x00000321, .read 0x0C 4] := by decide

/-- R99: `t_load` of a 33-bit code takes two chunks (V-EN-6). -/
theorem test_tLoad : (programEvents (tLoad 0x78 (List.replicate 32 true ++ [false]))) =
    [.write 0 4 0x00782111, .write 4 4 0xFFFFFFFF, .write 0 4 0x00002012, .write 4 4 0, .write 0 4 0x00000112] := by decide

/-- V-HOST-1: the table of "abracadabra". -/
theorem test_referenceTable : referenceTable [0x61, 0x62, 0x72, 0x61, 0x63, 0x61, 0x64, 0x61, 0x62, 0x72, 0x61] =
    [(0x61, [false]), (0x63, [true, false, false]), (0x64, [true, false, true]), (0x62, [true, true, false]),
     (0x72, [true, true, true])] := by decide

/-- V-SRC-3: the empty input fails before any command. -/
theorem test_empty_input : compress 0 [] State.reset = .failed .emptyInput := by decide

/-! ## Witnesses: an input that meets the hypotheses of each statement, clause by clause -/

theorem witness_SresetPutsEverythingToReset : opField 0x00000101 = 0x01 ∧ (0x00000101 : Word) ≠ 0x00000001 := by decide

theorem witness_NopChangesNothing : opField 0x01000000 = 0x00 ∧ (0x01000000 : Word) ≠ 0x00000000 := by decide

theorem witness_BlockedStateIgnoresCommands :
    blocked.err ≠ 0 ∧ blocked.rstN = true ∧ (0x00000002 : Word) ≠ 0x00000000 ∧ (0x00000002 : Word) ≠ 0x00000001 := by decide

theorem witness_EveryCommandCompletesOrFailsOnce : State.reset.err = 0 := by decide

theorem witness_FailingCommandIsPrecise :
    State.reset.err = 0 ∧ dispatchWord 0x00000014 State.reset = .next (State.reset.raise .empty 0x14) ∧
    (State.reset.raise .empty 0x14).err ≠ 0 := ⟨by decide, rfl, by decide⟩

/-- One step that leaves a recorded error alone, and one each by the pin and by SRESET that discards it. -/
theorem witness_OnlyResetLeavesTheBlockedState :
    blocked.err ≠ 0 ∧ step blocked = .next blocked ∧
    step (blocked.withInputs [.rst false]) = .next (setRstN false blocked) ∧
    step (blocked.withInputs [cmdEvent 1]) = .next blocked.resetRegs := ⟨by decide, rfl, rfl, rfl⟩

theorem witness_StepKeepsTheErrorRecordLegal :
    errorRecordOk blocked.err blocked.errOp = true ∧ step blocked = .next blocked := ⟨by decide, rfl⟩

theorem witness_DecodeOfEncodeIsTheCommand : Instr.wf (.wBits 32) = true ∧ Instr.wf (.tRow 0xFF 0xFF) = true := by decide

theorem witness_EncodeOfDecodeIsTheWord : decode 0x00002021 = .ok (.wBits 32) := by decide

theorem witness_IllegalWordsAreThoseOfTheSpec :
    State.reset.err = 0 ∧ decode 0x00002121 = .error .countTooLarge ∧ decode 0xFFFFFFFF = .error .unknownOp ∧
    ∃ r ∈ opcodeMap, r.selects 0x00002021 = true :=
  ⟨by decide, by decide, by decide, ⟨0x00000021, 0xFFFF00FF, fun n _ => .wBits n⟩, by simp [opcodeMap, writerRows], rfl⟩

theorem witness_DispatchOfACommandWrite :
    State.reset.rstN = true ∧ blocked.rstN = true ∧ blocked.err ≠ 0 ∧ State.reset.err = 0 ∧
    (∃ r ∈ opcodeMap, (0x00002121 : Word) &&& r.mask = r.pattern) ∧
    ∀ r ∈ opcodeMap, (0x00000037 : Word) &&& r.mask ≠ r.pattern :=
  ⟨by decide, by decide, by decide, by decide,
    ⟨⟨0x00000021, 0xFFFF00FF, fun n _ => .wBits n⟩, by simp [opcodeMap, writerRows], rfl⟩, by decide⟩

theorem witness_StepRunsTheDecodedCommand :
    (State.reset.withInputs [.write 0x00 4 0x00000025]).inputs = [.write 0x00 4 0x00000025] ∧ State.reset.rstN = true ∧
    State.reset.err = 0 ∧ decode 0x00000025 = .ok .wLen ∧ Instr.wf .wLen = true := by decide

theorem witness_ReadsReturnTheRegisters : blocked.rstN = true := by decide

theorem witness_WritesReachOnlyCmdAndArg :
    State.reset.rstN = true ∧ hostEvent (.write 0x04 4 7) State.reset = .next (State.reset.withArg 7) := ⟨by decide, rfl⟩

/-- The three ways an access has no meaning, each at its boundary, and the last access that has one. -/
theorem witness_AccessesWithoutMeaningAreRefused :
    (3 ≠ 4) ∧ (0x1D % 4 ≠ 0) ∧ (0x20 ≤ 0x20) ∧ (0x1C % 4 = 0) ∧ (0x1C < 0x20) := by decide

theorem witness_ResetInputHoldsTheMachine :
    (State.reset.withRstN false).rstN = false ∧ 0x1C % 4 = 0 ∧ 0x1C < 0x20 := by decide

theorem witness_HcbActsOnlyOnHostEvents :
    State.reset.inputs = [] ∧ (State.reset.withInputs [.rst false]).inputs = [.rst false] := by decide

theorem witness_StepsFollowTheHostsProgramOrder :
    runEvents [argEvent 7, cmdEvent 0x22] (State.reset.withInputs []) =
      .next ((State.reset.withArg 7).withObuf (bitsOf 8 (7 : Byte))) := rfl

theorem witness_StepKeepsTheInvariant : State.reset.Inv ∧ step State.reset = .next State.reset := ⟨by decide, rfl⟩

/-- A command other than SRESET, and not W_CLR, that answers a next state: for the frames of ARG, of storage, of the
writer's stream and of the host's side. -/
theorem witness_CommandsLeaveArg :
    exec .wLen State.reset = .next (State.reset.withRes 0) ∧ Instr.wLen ≠ .sreset ∧ Instr.wLen ≠ .wClr :=
  ⟨rfl, by decide, by decide⟩

theorem witness_OnlyResultCommandsWriteRes :
    exec .wClr State.reset = .next State.reset ∧ Instr.wClr ≠ .sreset ∧
    Instr.wClr.opcode ∉ [0x13, 0x15, 0x25, 0x26, 0x32, 0x33, 0x34, 0x35, 0x36] ∧
    dispatchWord 0x00000013 State.reset = .next (State.reset.raise .range 0x13) ∧
    dispatchWord 0x00000025 blocked = .next blocked ∧ blocked.err ≠ 0 :=
  ⟨rfl, by decide, by decide, rfl, rfl, by decide⟩

/-- W_LEN is outside all four lists of commands that change storage. -/
theorem witness_StorageChangesOnlyByItsCommands :
    exec .wLen State.reset = .next (State.reset.withRes 0) ∧ Instr.wLen.opcode ∉ [0x10, 0x11, 0x12, 0x15] ∧
    Instr.wLen.opcode ∉ [0x14, 0x20, 0x21, 0x22, 0x23, 0x24] ∧ Instr.wLen.opcode ∉ [0x30, 0x31] ∧
    Instr.wLen.opcode ∉ [0x15, 0x30, 0x33, 0x34, 0x35, 0x36] := ⟨rfl, by decide⟩

theorem witness_WriterStreamOnlyGrows :
    exec .wInt8 State.reset = .next (State.reset.withObuf (bitsOf 8 (0 : Byte))) ∧ Instr.wInt8 ≠ .sreset ∧
    Instr.wInt8 ≠ .wClr := ⟨rfl, by decide, by decide⟩

theorem witness_CommandsIgnoreTheHostsSide : exec .nop blocked = .next blocked := rfl

/-- N = 32 fills a stream of 4 bytes exactly; one bit more overflows. -/
theorem witness_WBitsAppendsTheChunk :
    (32 : Byte).toNat ≤ 32 ∧ (cap 4 4).wbits + (32 : Byte).toNat ≤ 8 * (cap 4 4).cfg.outCapBytes ∧
    ((cap 4 4).withObuf [true]).wbits + (32 : Byte).toNat > 8 * ((cap 4 4).withObuf [true]).cfg.outCapBytes := by decide

theorem witness_WIntAppendsTheInteger :
    (cap 1 1).wbits + 8 ≤ 8 * (cap 1 1).cfg.outCapBytes ∧
    ((cap 1 1).withObuf [true]).wbits + 8 > 8 * ((cap 1 1).withObuf [true]).cfg.outCapBytes ∧
    (cap 4 4).wbits + 32 ≤ 8 * (cap 4 4).cfg.outCapBytes ∧
    ((cap 4 4).withObuf [true]).wbits + 32 > 8 * ((cap 4 4).withObuf [true]).cfg.outCapBytes := by decide

theorem witness_AlignedIntegersAreLittleEndianBytes :
    (cap 4 4).wbits % 8 = 0 ∧ (cap 4 4).wbits + 32 ≤ 8 * (cap 4 4).cfg.outCapBytes ∧
    exec .wInt32 (cap 4 4) = .next ((cap 4 4).withObuf (List.replicate 32 false)) ∧
    (cap 1 1).wbits + 8 ≤ 8 * (cap 1 1).cfg.outCapBytes ∧
    exec .wInt8 (cap 1 1) = .next ((cap 1 1).withObuf (List.replicate 8 false)) := ⟨by decide, by decide, rfl, by decide, rfl⟩

/-- The last byte of a packed stream of 9 bits is at index 1. -/
theorem witness_WGetbReadsAPackedByte :
    ((writing (List.replicate 9 true)).withArg 1).arg.toNat < ((writing (List.replicate 9 true)).wbits + 7) / 8 ∧
    ((writing (List.replicate 9 true)).withArg 2).arg.toNat ≥ ((writing (List.replicate 9 true)).wbits + 7) / 8 := by
  decide

/-- Bit 9 is the first padding bit of a stream of 9 bits, and bit 1 of its last byte. -/
theorem witness_PaddingBitsAreZero :
    (writing (List.replicate 9 true)).wbits ≤ 9 ∧
    (writing (List.replicate 9 true)).wbits ≤ 8 * (((writing (List.replicate 9 true)).wbits + 7) / 8 - 1) + 1 := by decide

/-- A bit string of 33 bits fills a stream of 5 bytes that holds 7. -/
theorem witness_WCodeAppendsTheWholeBitString :
    ((cap 5 1).withObuf (List.replicate 7 true)).rstN = true ∧ ((cap 5 1).withObuf (List.replicate 7 true)).err = 0 ∧
    ((cap 5 1).withObuf (List.replicate 7 true)).wbits + (List.replicate 33 true).length ≤
      8 * ((cap 5 1).withObuf (List.replicate 7 true)).cfg.outCapBytes := by decide

theorem witness_RPutbAppendsAByte :
    (cap 1 1).ilen ≠ (cap 1 1).cfg.inCapBytes ∧ (cap 1 1).rbits ≤ 8 * (cap 1 1).ilen ∧
    ((cap 1 1).withIbuf [0]).ilen = ((cap 1 1).withIbuf [0]).cfg.inCapBytes := by decide

/-- N = 32 takes exactly what is left of 4 bytes; one bit less is an under-read. -/
theorem witness_RPeekLooksAhead :
    (32 : Byte).toNat ≤ 32 ∧ (32 : Byte).toNat ≤ (reading [1, 2, 3, 4] 0).inRem ∧
    (32 : Byte).toNat > (reading [1, 2, 3, 4] 1).inRem := by decide

theorem witness_RTakeConsumes :
    (0 : Byte).toNat ≤ 32 ∧ (0 : Byte).toNat ≤ State.reset.inRem ∧ (32 : Byte).toNat ≤ (reading [1, 2, 3, 4] 0).inRem ∧
    (32 : Byte).toNat > (reading [1, 2, 3, 4] 1).inRem := by decide

theorem witness_RIntConsumesAnInteger :
    8 ≤ (reading [1] 0).inRem ∧ 8 > (reading [1] 1).inRem ∧ 32 ≤ (reading [1, 2, 3, 4] 0).inRem ∧
    32 > (reading [1, 2, 3, 4] 1).inRem := by decide

theorem witness_Int32IsFourInt8 : 32 ≤ (reading [1, 2, 3, 4, 5] 8).inRem := by decide

/-- A table of `n` rows. -/
theorem length_rows (n : Nat) : (tabled (List.replicate n rowA)).tbln = n := List.length_replicate

/-- Length 0 with any table; a full table; a table with one free row. -/
theorem witness_TRowAppendsARow :
    (255 : Byte) ≠ 0 ∧ (tabled (List.replicate 256 rowA)).tbln = 256 ∧ (tabled (List.replicate 255 rowA)).tbln ≠ 256 ∧
    exec (.tRow 0x61 255) State.reset = .next (tabled [⟨0x61, 255, []⟩]) := by
  rw [length_rows, length_rows]
  exact ⟨by decide, rfl, by decide, rfl⟩

theorem witness_TCodeFillsTheLastRow :
    (1 : Byte).toNat ≤ 32 ∧ State.reset.tbl = [] ∧ (tabled [rowA, rowOpen]).tbl = [rowA] ++ [rowOpen] ∧
    rowOpen.code.length + (1 : Byte).toNat ≤ rowOpen.len.toNat ∧
    rowOpen.code.length + (2 : Byte).toNat > rowOpen.len.toNat := by decide

theorem witness_TRdrowReadsARow :
    ((tabled [rowA]).withArg 1).arg.toNat ≥ ((tabled [rowA]).withArg 1).tbl.length ∧
    (tabled [rowA]).tbl[(tabled [rowA]).arg.toNat]? = some rowA ∧ rowA.code.length ≤ 255 := by decide

/-- The table of `rowA` takes 25 bits: it fits 4 bytes from bit 7 and not from bit 8. -/
theorem witness_WTableLaysOutTheTable :
    (tabled []).tbl = [] ∧ (tabled [rowOpen]).tbl ≠ [] ∧ (∃ r ∈ (tabled [rowOpen]).tbl, r.code.length ≠ r.len.toNat) ∧
    (∀ r ∈ (tabled [rowA]).tbl, r.code.length = r.len.toNat) ∧ (tabled [rowA]).tbl.length ≤ 256 ∧
    7 + rowStart [rowA] 1 ≤ 8 * 4 ∧ 8 + rowStart [rowA] 1 > 8 * 4 ∧ [rowA][0]? = some rowA := by decide

/-- The table of `rowA` as the reader's stream 00 61 01 00, read to its last bit. -/
theorem witness_RTableReadsBackEveryTable :
    1 ≤ [rowA].length ∧ [rowA].length ≤ 256 ∧ (∀ r ∈ [rowA], r.len ≠ 0 ∧ r.code.length = r.len.toNat) ∧
    (reading [0x00, 0x61, 0x01, 0x00] 0).rbits + rowStart [rowA] 1 ≤ 8 * (reading [0x00, 0x61, 0x01, 0x00] 0).ilen ∧
    (∀ j < 8, (reading [0x00, 0x61, 0x01, 0x00] 0).inBit (0 + j) = ([rowA].length - 1).testBit j) ∧
    RowAt (reading [0x00, 0x61, 0x01, 0x00] 0) (0 + rowStart [rowA] 0) rowA := by decide

/-- No count byte; then, with no good row before: no symbol or length, a length of 0, and a length of 1 with no code. -/
theorem witness_RTableFailsAtTheFirstBadField :
    State.reset.rbits + 8 > 8 * State.reset.ilen ∧ 0 < 256 ∧ ([] : List Row).length ≤ 0 ∧
    (reading [0x00] 0).rbits + rowStart [] 0 ≤ 8 * (reading [0x00] 0).ilen ∧
    (∀ j < 8, (reading [0x00] 0).inBit (0 + j) = (0 : Nat).testBit j) ∧
    (reading [0x00] 0).rbits + rowStart [] 0 + 16 > 8 * (reading [0x00] 0).ilen ∧
    (reading [0x00, 0x61, 0x01] 0).rbits + rowStart [] 0 + 16 ≤ 8 * (reading [0x00, 0x61, 0x01] 0).ilen ∧
    (∀ j < 8, (reading [0x00, 0x61, 0x00] 0).inBit (0 + rowStart [] 0 + 8 + j) = (0 : Byte).getLsbD j) ∧
    (∀ j < 8, (reading [0x00, 0x61, 0x01] 0).inBit (0 + rowStart [] 0 + 8 + j) = (1 : Byte).getLsbD j) ∧
    (reading [0x00, 0x61, 0x01] 0).rbits + rowStart [] 0 + 16 + (1 : Byte).toNat >
      8 * (reading [0x00, 0x61, 0x01] 0).ilen := by decide

/-- Codes of 1 and of 255 bits, with one free row. -/
theorem witness_TLoadLoadsTheWholeCode :
    State.reset.rstN = true ∧ State.reset.err = 0 ∧ (tabled (List.replicate 255 rowA)).tbln < 256 ∧
    1 ≤ (List.replicate 255 true).length ∧ (List.replicate 255 true).length ≤ 255 ∧ 1 ≤ [false].length := by
  rw [length_rows, List.length_replicate]
  decide

/-- ('b', "01") fills a stream of 8 bits at 6 and overflows it at 7; no row has the symbol 'z'. -/
theorem witness_WSymAppendsTheFirstRowsCode :
    (∃ r ∈ (tabled [rowOpen]).tbl, r.code.length ≠ r.len.toNat) ∧
    (∀ r ∈ (tabled [rowA, rowB]).tbl, r.code.length = r.len.toNat) ∧ (∀ r ∈ (tabled [rowA, rowB]).tbl, r.sym ≠ 0x7A) ∧
    (tabled [rowA, rowB]).tbl = [rowA] ++ rowB :: [] ∧ (∀ q ∈ [rowA], q.sym ≠ 0x62) ∧ rowB.sym = 0x62 ∧
    6 + rowB.len.toNat ≤ 8 * 1 ∧ 7 + rowB.len.toNat > 8 * 1 := by decide

/-- The next bits are 1, 0: ('b', "01") before the match ('c', "1") does not match. -/
theorem witness_RSymTakesTheFirstMatch :
    (∀ r ∈ ((reading [0x01] 0).withTbl [rowB, rowC]).tbl, r.code.length = r.len.toNat) ∧
    ((reading [0x01] 0).withTbl [rowB, rowC]).tbl = [rowB] ++ rowC :: [] ∧
    (∀ q ∈ [rowB], ¬ Matches ((reading [0x01] 0).withTbl [rowB, rowC]) q) ∧
    Matches ((reading [0x01] 0).withTbl [rowB, rowC]) rowC := by decide

/-- One bit 0 left: ('b', "01") is too long and ('c', "1") differs. Two bits 0 left: neither is too long. -/
theorem witness_RSymFailsWithoutAMatch :
    (∃ r ∈ (tabled [rowOpen]).tbl, r.code.length ≠ r.len.toNat) ∧ (∀ r ∈ [rowB, rowC], r.code.length = r.len.toNat) ∧
    (∀ r ∈ [rowB, rowC], ¬ Matches (reading [0x00] 7) r) ∧ (∃ r ∈ [rowB, rowC], r.len.toNat > (reading [0x00] 7).inRem) ∧
    (∀ r ∈ [rowB, rowC], ¬ Matches (reading [0x00] 6) r) ∧ ∀ r ∈ [rowB, rowC], r.len.toNat ≤ (reading [0x00] 6).inRem := by
  decide

theorem witness_RSymOnAPrefixFreeTableIgnoresRowOrder :
    (∀ q ∈ ((reading [0x01] 0).withTbl [rowB, rowC]).tbl, q.code.length = q.len.toNat) ∧ PrefixFree [rowB, rowC] ∧
    rowC ∈ [rowB, rowC] ∧ Matches ((reading [0x01] 0).withTbl [rowB, rowC]) rowC ∧ [rowC, rowB].Perm [rowB, rowC] := by
  refine ⟨by decide, by unfold PrefixFree; decide, by decide, by decide, .swap ..⟩

/-- The payload "1", "01" of the symbols 'c', 'b' as the reader's stream 05. -/
theorem witness_DecodingAnEncodedPayloadGivesTheSymbols :
    (tabled [rowB, rowC]).err = 0 ∧ ((reading [0x05] 0).withTbl [rowB, rowC]).err = 0 ∧
    (∀ r ∈ (tabled [rowB, rowC]).tbl, r.code.length = r.len.toNat) ∧ PrefixFree (tabled [rowB, rowC]).tbl ∧
    encodeAll [0x63, 0x62] (tabled [rowB, rowC]) = some ((tabled [rowB, rowC]).withObuf [true, false, true]) ∧
    ((reading [0x05] 0).withTbl [rowB, rowC]).tbl = (tabled [rowB, rowC]).tbl ∧ 0 + (3 - 0) ≤ 8 * (reading [0x05] 0).ilen ∧
    ∀ k < 3 - 0, (reading [0x05] 0).inBit (0 + k) = (writing [true, false, true]).outBit (0 + k) := by
  refine ⟨by decide, by decide, by decide, by unfold PrefixFree; decide, by decide, by decide, by decide, by decide⟩

theorem witness_ReferenceTableIsPrefixFree : ([0x61] : List Byte) ≠ [] := by decide

/-- "aaab" (V-SRC-1) on a machine whose buffers hold exactly its 10 bytes. -/
theorem witness_CompressThenDecompressGivesTheText :
    ([0x61, 0x61, 0x61, 0x62] : List Byte) ≠ [] ∧ (∀ x ∈ ([0x61, 0x61, 0x61, 0x62] : List Byte), x.toNat < 128) ∧
    (cap 10 10).cfg.wf = true ∧ (cap 10 10).rstN = true ∧
    streamBits (referenceTable [0x61, 0x61, 0x61, 0x62]) [0x61, 0x61, 0x61, 0x62] ≤ 8 * (cap 10 10).cfg.outCapBytes ∧
    streamBits (referenceTable [0x61, 0x61, 0x61, 0x62]) [0x61, 0x61, 0x61, 0x62] ≤ 8 * (cap 10 10).cfg.inCapBytes := by
  decide

end Sys2Proof.Tests
end

section
/-! PROOFS of the scope family (00_scope.md R6, R7): what one step can do, said once over the host's events, the state
invariant that every step keeps, and that a command neither reads nor writes the host's side. -/

namespace Sys2Proof.Machine

/-! ## What a step can do -/

/-- No command changes the capacities, the level of `rst_n` or the host's side. -/
theorem exec_frame {i : Instr} {s t : State} (h : exec i s = .next t) :
    t.cfg = s.cfg ∧ t.rstN = s.rstN ∧ t.inputs = s.inputs ∧ t.responses = s.responses := by
  obtain ⟨u, hu, hdid⟩ := exec_cases i s
  obtain rfl : u = t := by simpa [hu] using h
  rcases hdid with ⟨-, -, hcfg, hrst, -, hin, hresp⟩ | ⟨-, rfl⟩ | ⟨e, rfl, -⟩
  · exact ⟨hcfg, hrst, hin, hresp⟩
  · exact ⟨rfl, rfl, rfl, rfl⟩
  · exact ⟨rfl, rfl, rfl, rfl⟩

/-- All a CMD write can do: be ignored, perform a command, or raise E_ILLEGAL (R253, R255). -/
theorem dispatchWord_cases {w : Word} {s t : State} (h : dispatchWord w s = .next t) :
    t = s ∨ (∃ i, exec i s = .next t) ∨ t = s.raise .illegal (opField w) := by
  unfold dispatchWord at h
  split at h
  · unfold commandWrite at h
    split at h
    · exact .inr (.inl ⟨_, h⟩)
    · cases h; exact .inr (.inr rfl)
  · unfold blockedWrite at h
    split_ifs at h
    · exact .inr (.inl ⟨_, h⟩)
    · exact .inr (.inl ⟨_, h⟩)
    · cases h; exact .inl rfl

/-- All a register write can do; only out of reset does it change anything (R72, R280). -/
theorem writeReg_cases {r : Reg} {v : Word} {s t : State} (h : writeReg r v s = .next t) :
    t = s ∨ s.rstN = true ∧ (t = s.withArg v ∨ dispatchWord v s = .next t) := by
  unfold writeReg at h
  split at h
  · rename_i hrst
    cases r with
    | cmd => exact .inr ⟨hrst, .inr h⟩
    | arg => cases h; exact .inr ⟨hrst, .inl rfl⟩
    | res | status | wbits | rbits | ilen | tbln => cases h; exact .inl rfl
  · cases h; exact .inl rfl

/-- All a host event can do: return a word, write a register, or move `rst_n` (R70, R280). -/
theorem hostEvent_cases {e : HostEvent} {s t : State} (h : hostEvent e s = .next t) :
    (∃ v, t = s.respond v) ∨ (∃ r v, writeReg r v s = .next t) ∨ ∃ level, t = setRstN level s := by
  cases e with
  | read off size =>
    simp only [hostEvent] at h
    split at h <;> cases h
    exact .inl ⟨_, rfl⟩
  | write off size v =>
    simp only [hostEvent] at h
    split at h
    · cases h
    · exact .inr (.inl ⟨_, _, h⟩)
  | rst level => cases h; exact .inr (.inr ⟨level, rfl⟩)

/-- With no host event pending HCB is idle (R267). -/
theorem step_idle {s : State} (h : s.inputs = []) : step s = .next s := by rw [step, h]

/-- A step takes the oldest host event and performs it on the rest of the state (R75). -/
theorem step_event {s : State} {e : HostEvent} {es : List HostEvent} (h : s.inputs = e :: es) :
    step s = hostEvent e (s.withInputs es) := by rw [step, h]

/-- All a step can do. -/
theorem step_cases {s t : State} (h : step s = .next t) :
    t = s ∨ ∃ e es, hostEvent e (s.withInputs es) = .next t := by
  cases hin : s.inputs with
  | nil => rw [step_idle hin] at h; cases h; exact .inl rfl
  | cons e es => exact .inr ⟨e, es, step_event hin ▸ h⟩

/-! ## The state invariant -/

/-- Reset leaves the values of R38. -/
theorem resetRegs_atReset (s : State) : s.resetRegs.AtReset :=
  ⟨rfl, rfl, rfl, rfl, rfl, rfl, rfl, rfl, rfl⟩

/-- Out of reset the invariant needs no more than the capacities kept and the storage in form. -/
theorem inv_of_released {s t : State} (hs : s.Inv) (hrst : s.rstN = true) (hcfg : t.cfg = s.cfg)
    (hrst' : t.rstN = s.rstN) (hwf : Memory.wf t = true) : t.Inv :=
  ⟨hcfg ▸ hs.1, hwf, fun hlow => by simp [hrst', hrst] at hlow⟩

theorem exec_keeps_inv {i : Instr} {s t : State} (hs : s.Inv) (hrst : s.rstN = true) (h : exec i s = .next t) :
    t.Inv := by
  have ⟨_, hwf, _⟩ := hs
  obtain ⟨hcfg, hrst', -, -⟩ := exec_frame h
  exact inv_of_released hs hrst hcfg hrst' (exec_keeps_wf i s t hwf h)

theorem dispatchWord_keeps_inv {w : Word} {s t : State} (hs : s.Inv) (hrst : s.rstN = true)
    (h : dispatchWord w s = .next t) : t.Inv := by
  have ⟨_, hwf, _⟩ := hs
  rcases dispatchWord_cases h with rfl | ⟨i, hi⟩ | rfl
  · exact hs
  · exact exec_keeps_inv hs hrst hi
  · exact inv_of_released hs hrst rfl rfl hwf

theorem writeReg_keeps_inv {r : Reg} {v : Word} {s t : State} (hs : s.Inv) (h : writeReg r v s = .next t) :
    t.Inv := by
  have ⟨_, hwf, _⟩ := hs
  rcases writeReg_cases h with rfl | ⟨hrst, rfl | hw⟩
  · exact hs
  · exact inv_of_released hs hrst rfl rfl hwf
  · exact dispatchWord_keeps_inv hs hrst hw

/-- Releasing `rst_n` keeps the storage, and asserting it sets the reset values (R280). -/
theorem setRstN_keeps_inv {s : State} (level : Bool) (hs : s.Inv) : (setRstN level s).Inv := by
  obtain ⟨hcfg, hwf, -⟩ := hs
  cases level with
  | true => exact ⟨hcfg, hwf, nofun⟩
  | false => exact ⟨hcfg, resetRegs_wf s, fun _ => resetRegs_atReset s⟩

theorem hostEvent_keeps_inv {e : HostEvent} {s t : State} (hs : s.Inv) (h : hostEvent e s = .next t) : t.Inv := by
  rcases hostEvent_cases h with ⟨v, rfl⟩ | ⟨r, v, hw⟩ | ⟨level, rfl⟩
  · exact hs
  · exact writeReg_keeps_inv hs hw
  · exact setRstN_keeps_inv level hs

/-- Settles O23: a step idles or performs one host event, and every host event keeps the invariant. -/
theorem stepKeepsTheInvariant : Obligations.StepKeepsTheInvariant := by
  intro s t hs h
  rcases step_cases h with rfl | ⟨e, es, he⟩
  · exact hs
  · have hs' : (s.withInputs es).Inv := hs
    exact hostEvent_keeps_inv hs' he

/-! ## Commands and the host's side -/

/-- The state with other pending events, words read and level of `rst_n`: the fields no command looks at. -/
def State.withHostSide (es : List HostEvent) (rs : List Word) (l : Bool) (s : State) : State :=
  { s with inputs := es, responses := rs, rstN := l }

/-- An outcome with its next state, where it has one, changed by `f`. -/
def mapNext (f : State → State) : Result → Result
  | .next s => .next (f s)
  | .fault r => .fault r
  | .refused r => .refused r

@[simp] theorem mapNext_next (f : State → State) (s : State) : mapNext f (.next s) = .next (f s) := rfl

section
variable (es : List HostEvent) (rs : List Word) (l : Bool) (s : State)

theorem appendChecked_withHostSide (op : Byte) (c : Bits) :
    appendChecked op c (s.withHostSide es rs l) = mapNext (.withHostSide es rs l) (appendChecked op c s) := by
  simp only [appendChecked, apply_ite (mapNext _), mapNext_next]
  rfl

theorem readChecked_withHostSide (op : Byte) (n adv : Nat) :
    readChecked op n adv (s.withHostSide es rs l) = mapNext (.withHostSide es rs l) (readChecked op n adv s) := by
  simp only [readChecked, apply_ite (mapNext _), mapNext_next]
  rfl

theorem scan_withHostSide (t : List Row) (short : Bool) :
    (s.withHostSide es rs l).scan t short = s.scan t short := by
  induction t generalizing short with
  | nil => rfl
  | cons r t ih =>
    simp only [State.scan, ih]
    rfl

theorem readRows_withHostSide (k p : Nat) : (s.withHostSide es rs l).readRows k p = s.readRows k p := by
  induction k generalizing p with
  | zero => rfl
  | succ k ih =>
    have hrow : (s.withHostSide es rs l).readRow p = s.readRow p := rfl
    simp only [State.readRows, hrow, ih]

theorem readTable_withHostSide (p : Nat) : (s.withHostSide es rs l).readTable p = s.readTable p := by
  have hfield : (s.withHostSide es rs l).getField p 8 = s.getField p 8 := rfl
  simp only [State.readTable, hfield, readRows_withHostSide]

/-- A command on a state with another host's side is the command, with that host's side put into its answer. -/
theorem exec_withHostSide (i : Instr) :
    exec i (s.withHostSide es rs l) = mapNext (.withHostSide es rs l) (exec i s) := by
  cases i with
  | nop | sreset | tClr | wClr | wLen | rClr => rfl
  | wBits | wInt8 | wInt32 => exact appendChecked_withHostSide ..
  | rPeek | rTake | rInt8 | rInt32 => exact readChecked_withHostSide ..
  | tRow sym len =>
    simp only [exec, execTRow, apply_ite (mapNext _), mapNext_next]
    rfl
  | rPutb =>
    simp only [exec, execRPutb, apply_ite (mapNext _), mapNext_next]
    rfl
  | wGetb =>
    simp only [exec, execWGetb, apply_ite (mapNext _), mapNext_next]
    rfl
  | tCode n =>
    have htbl : (s.withHostSide es rs l).tbl = s.tbl := rfl
    simp only [exec, execTCode, htbl]
    cases s.tbl.getLast? with
    | none => rfl
    | some r =>
      simp only [apply_ite (mapNext _), mapNext_next]
      rfl
  | tRdrow =>
    have hrow : (s.withHostSide es rs l).tbl[(s.withHostSide es rs l).argIndex]? = s.tbl[s.argIndex]? := rfl
    simp only [exec, execTRdrow, hrow]
    cases s.tbl[s.argIndex]? <;> rfl
  | wTable =>
    simp only [exec, execWTable, apply_ite (mapNext _), mapNext_next, appendChecked_withHostSide]
    rfl
  | wSym sym =>
    have hrow : (s.withHostSide es rs l).rowOf sym = s.rowOf sym := rfl
    simp only [exec, execWSym, hrow, apply_ite (mapNext _), mapNext_next]
    cases s.rowOf sym with
    | none => rfl
    | some r =>
      simp only [appendChecked_withHostSide]
      rfl
  | rTable =>
    have hpos : (s.withHostSide es rs l).rbits = s.rbits := rfl
    simp only [exec, execRTable, readTable_withHostSide, hpos]
    cases s.readTable s.rbits <;> rfl
  | rSym =>
    have htbl : (s.withHostSide es rs l).tbl = s.tbl := rfl
    simp only [exec, execRSym, scan_withHostSide, htbl, apply_ite (mapNext _), mapNext_next]
    cases s.scan s.tbl false <;> rfl

end

/-- Settles O28: the capacities stay, and every command commutes with replacing the host's side. -/
theorem commandsIgnoreTheHostsSide : Obligations.CommandsIgnoreTheHostsSide := by
  intro i s t es rs l h
  obtain ⟨hcfg, -, -, -⟩ := exec_frame h
  refine ⟨hcfg, ?_⟩
  have hmap := exec_withHostSide es rs l s i
  rwa [h, mapNext_next] at hmap

/-! ## Idling and reset -/

/-- Settles O20, by the two cases of a step. -/
theorem hcbActsOnlyOnHostEvents : Obligations.HcbActsOnlyOnHostEvents :=
  ⟨fun _ => step_idle, fun _ _ _ => step_event⟩

/-- Settles O22: the capacities of log 5 are legal, the storage is empty, and `rst_n` is released (log 7). -/
theorem resetMeetsTheInvariant : Obligations.ResetMeetsTheInvariant := by
  have hcfg : Config.atReset.wf = true := by decide
  exact ⟨hcfg, reset_memory_wf, nofun⟩

end Sys2Proof.Machine
end

section
/-! PROOFS about the decoder (30_encoding.md R94 to R96): no word selects two rows of the opcode map, and a legal
command's word decodes to the command. -/

namespace Sys2Proof.Machine

/-! ## The fields of a command's word -/

@[simp] theorem nField_encode (i : Instr) : nField (encode i) = i.nOperand :=
  (Laws.WordFields.fields_of_append i.opcode i.nOperand i.sOperand).2.1

@[simp] theorem sField_encode (i : Instr) : sField (encode i) = i.sOperand :=
  (Laws.WordFields.fields_of_append i.opcode i.nOperand i.sOperand).2.2.1

/-- A mask of all ones over OP and RSV that covers only unused parts of N and S leaves the bare OP of a command's
word. -/
theorem encode_and_mask {i : Instr} {mn ms : Byte} (hn : i.nOperand &&& mn = 0#8) (hs : i.sOperand &&& ms = 0#8) :
    encode i &&& (0xFF#8 ++ ms ++ mn ++ 0xFF#8) = 0#8 ++ 0#8 ++ 0#8 ++ i.opcode := by
  have hop : i.opcode &&& 0xFF#8 = i.opcode := BitVec.and_allOnes
  have hrsv : (0 : Byte) &&& 0xFF#8 = 0#8 := by decide
  rw [encode, BitVec.and_append, BitVec.and_append, BitVec.and_append, hop, hrsv, hn, hs]

/-! ## The row a word selects -/

theorem opcodeMap_ops_nodup : (opcodeMap.map fun r => opField r.pattern).Nodup := by decide

theorem opField_mask_of_mem : ∀ r ∈ opcodeMap, opField r.mask = 0xFF#8 := by decide

/-- Every mask of R95 covers OP, so a word has the OP of the row it selects. -/
theorem opField_of_selects {r : OpRow} {w : Word} (hr : r ∈ opcodeMap) (h : r.selects w = true) :
    opField w = opField r.pattern := by
  have hmask : w &&& r.mask = r.pattern := by simpa [OpRow.selects] using h
  calc opField w = opField w &&& 0xFF#8 := BitVec.and_allOnes.symm
    _ = opField w &&& opField r.mask := by rw [opField_mask_of_mem r hr]
    _ = opField (w &&& r.mask) := BitVec.extractLsb'_and.symm
    _ = opField r.pattern := by rw [hmask]

/-- No word selects two rows: they would have one OP (R95). -/
theorem eq_of_selects {r₁ r₂ : OpRow} {w : Word} (hr₁ : r₁ ∈ opcodeMap) (hr₂ : r₂ ∈ opcodeMap)
    (h₁ : r₁.selects w = true) (h₂ : r₂.selects w = true) : r₁ = r₂ :=
  List.inj_on_of_nodup_map opcodeMap_ops_nodup hr₁ hr₂
    ((opField_of_selects hr₁ h₁).symm.trans (opField_of_selects hr₂ h₂))

theorem find?_selects {r : OpRow} {w : Word} (hr : r ∈ opcodeMap) (h : r.selects w = true) :
    opcodeMap.find? (fun r => r.selects w) = some r := by
  cases hfind : opcodeMap.find? (fun r => r.selects w) with
  | none => exact absurd h (List.find?_eq_none.1 hfind r hr)
  | some r' =>
    have h' : r'.selects w = true := List.find?_some (p := fun r : OpRow => r.selects w) hfind
    rw [eq_of_selects (List.mem_of_find?_eq_some hfind) hr h' h]

/-- A word that selects a row decodes to what the row builds, where that is legal (R253). -/
theorem decode_of_selects {r : OpRow} {w : Word} (hr : r ∈ opcodeMap) (h : r.selects w = true)
    (hwf : (r.build (nField w) (sField w)).wf = true) : decode w = .ok (r.build (nField w) (sField w)) := by
  simp only [decode, find?_selects hr h, if_pos hwf]

/-! ## Decoding an encoded command -/

/-- A legal command decodes as itself through the row whose pattern is the command's OP, whose mask covers only unused
parts of N and S, and which builds the command from its operands. -/
theorem decode_encode_of_row {i : Instr} {r : OpRow} (hr : r ∈ opcodeMap) (mn ms : Byte)
    (hmask : r.mask = 0xFF#8 ++ ms ++ mn ++ 0xFF#8) (hpattern : r.pattern = 0#8 ++ 0#8 ++ 0#8 ++ i.opcode)
    (hn : i.nOperand &&& mn = 0#8) (hs : i.sOperand &&& ms = 0#8) (hbuild : r.build i.nOperand i.sOperand = i)
    (hwf : i.wf = true) : decode (encode i) = .ok i := by
  have hsel : r.selects (encode i) = true := by
    rw [OpRow.selects, hmask, hpattern, encode_and_mask hn hs, beq_self_eq_true]
  have hbuild' : r.build (nField (encode i)) (sField (encode i)) = i := by simpa using hbuild
  have hdec := decode_of_selects hr hsel (by rwa [hbuild'])
  rwa [hbuild'] at hdec

/-- The decoder gives back every legal command: the word of a command without operands is one number, and the row of a
command with operands masks none of them. -/
theorem decode_encode (i : Instr) (hwf : i.wf = true) : decode (encode i) = .ok i := by
  cases i with
  | nop | sreset | tClr | tRdrow | wTable | rTable => decide
  | wClr | wInt8 | wInt32 | wLen | wGetb => decide
  | rClr | rPutb | rInt8 | rInt32 | rSym => decide
  | tRow sym len =>
    have hr : ⟨0x00000011, 0xFF0000FF, fun n s => .tRow s n⟩ ∈ opcodeMap := by simp [opcodeMap, controlTableRows]
    exact decode_encode_of_row hr 0 0 (by decide) (by simp [Instr.opcode]) BitVec.and_zero BitVec.and_zero rfl hwf
  | wSym sym =>
    have hr : ⟨0x00000024, 0xFF00FFFF, fun _ s => .wSym s⟩ ∈ opcodeMap := by simp [opcodeMap, writerRows]
    exact decode_encode_of_row hr 0xFF 0 (by decide) (by simp [Instr.opcode]) BitVec.zero_and BitVec.and_zero rfl hwf
  | tCode n =>
    have hr : ⟨0x00000012, 0xFFFF00FF, fun n _ => .tCode n⟩ ∈ opcodeMap := by simp [opcodeMap, controlTableRows]
    exact decode_encode_of_row hr 0 0xFF (by decide) (by simp [Instr.opcode]) BitVec.and_zero BitVec.zero_and rfl hwf
  | wBits n =>
    have hr : ⟨0x00000021, 0xFFFF00FF, fun n _ => .wBits n⟩ ∈ opcodeMap := by simp [opcodeMap, writerRows]
    exact decode_encode_of_row hr 0 0xFF (by decide) (by simp [Instr.opcode]) BitVec.and_zero BitVec.zero_and rfl hwf
  | rPeek n =>
    have hr : ⟨0x00000032, 0xFFFF00FF, fun n _ => .rPeek n⟩ ∈ opcodeMap := by simp [opcodeMap, readerRows]
    exact decode_encode_of_row hr 0 0xFF (by decide) (by simp [Instr.opcode]) BitVec.and_zero BitVec.zero_and rfl hwf
  | rTake n =>
    have hr : ⟨0x00000033, 0xFFFF00FF, fun n _ => .rTake n⟩ ∈ opcodeMap := by simp [opcodeMap, readerRows]
    exact decode_encode_of_row hr 0 0xFF (by decide) (by simp [Instr.opcode]) BitVec.and_zero BitVec.zero_and rfl hwf

end Sys2Proof.Machine
end

section
/-! PROOFS of the state family (10_state.md R22 to R25, R33, R38): the values reset gives, the fields of STATUS, which
commands leave ARG and RES, and the step that runs a written command. -/

namespace Sys2Proof.Machine

/-! ## Reset -/

/-- Settles O1: all three states are, in HCB's own fields, what `resetRegs` leaves. -/
theorem resetGivesTheResetValues : Obligations.ResetGivesTheResetValues :=
  ⟨resetRegs_atReset .reset, fun s => ⟨_, rfl, resetRegs_atReset s⟩, fun s => ⟨_, rfl, resetRegs_atReset s⟩⟩

/-! ## STATUS -/

/-- The bits of STATUS, field by field (R25). -/
theorem getLsbD_status (s : State) (j : Nat) :
    s.status.getLsbD j =
      if j < 4 then s.err.getLsbD j else if j < 8 then false else if j < 16 then s.errOp.getLsbD (j - 8)
      else if j < 17 then (BitVec.ofBool s.complete).getLsbD (j - 16) else false := by
  have h8 : j - 4 < 4 ↔ j < 8 := by omega
  have h16 : j - 8 < 8 ↔ j < 16 := by omega
  have h17 : j - 16 < 1 ↔ j < 17 := by omega
  simp only [State.status, BitVec.getLsbD_append, BitVec.ofNat_eq_ofNat, BitVec.getLsbD_zero]
  simp only [Nat.sub_sub, Nat.reduceAdd, h8, h16, h17]

/-- Settles O18, field by field. -/
theorem statusLayout : Obligations.StatusLayout := by
  intro s
  refine ⟨fun j hj => ?_, fun j hlo hhi => ?_, fun j hj => ?_, ?_, fun j hj => ?_⟩
  · rw [getLsbD_status, if_pos hj]
  · rw [getLsbD_status, if_neg (by omega), if_pos hhi]
  · rw [getLsbD_status, if_neg (by omega), if_neg (by omega), if_pos (by omega), Nat.add_sub_cancel_left]
  · rw [getLsbD_status, ← complete_iff]
    simp
  · rw [getLsbD_status, if_neg (by omega), if_neg (by omega), if_neg (by omega), if_neg (by omega)]

/-! ## ARG and RES -/

/-- What a command did, of the answer it gave. -/
theorem exec_did {i : Instr} {s t : State} (h : exec i s = .next t) : Did i s t := by
  obtain ⟨u, hu, hdid⟩ := exec_cases i s
  obtain rfl : u = t := by simpa [hu] using h
  exact hdid

/-- Settles O24: what a command can do leaves ARG, except for SRESET. -/
theorem commandsLeaveArg : Obligations.CommandsLeaveArg := by
  intro i s t h hne
  rcases exec_did h with ⟨-, -, -, -, harg, -, -⟩ | ⟨hi, -⟩ | ⟨e, rfl, -⟩
  · exact harg
  · exact absurd hi hne
  · rfl

/-- A checked append leaves RES, whether it fits or not. -/
theorem appendChecked_keeps_res {op : Byte} {c : Bits} {s t : State} (h : appendChecked op c s = .next t) :
    t.res = s.res := by
  rcases appendChecked_cases h with ⟨-, rfl⟩ | ⟨-, rfl⟩ <;> rfl

/-- The commands outside the list of R23 leave RES. -/
theorem exec_keeps_res {i : Instr} {s t : State} (h : exec i s = .next t) (hne : i ≠ .sreset)
    (hop : i.opcode ∉ [0x13, 0x15, 0x25, 0x26, 0x32, 0x33, 0x34, 0x35, 0x36]) : t.res = s.res := by
  cases i with
  | sreset => exact absurd rfl hne
  | tRdrow | rTable | wLen | wGetb | rPeek | rTake | rInt8 | rInt32 | rSym => simp [Instr.opcode] at hop
  | nop | tClr | wClr | rClr => cases h; rfl
  | wBits | wInt8 | wInt32 => exact appendChecked_keeps_res h
  | tRow sym len =>
    simp only [exec, execTRow] at h
    split_ifs at h <;> cases h <;> rfl
  | rPutb =>
    simp only [exec, execRPutb] at h
    split_ifs at h <;> cases h <;> rfl
  | tCode n =>
    simp only [exec, execTCode] at h
    split at h
    · cases h; rfl
    · split_ifs at h <;> cases h <;> rfl
  | wTable =>
    simp only [exec, execWTable] at h
    split_ifs at h
    · cases h; rfl
    · cases h; rfl
    · exact appendChecked_keeps_res h
  | wSym sym =>
    simp only [exec, execWSym] at h
    split_ifs at h
    · cases h; rfl
    · split at h
      · cases h; rfl
      · exact appendChecked_keeps_res h

/-- A command that ends in an error, from a state without one, changes nothing but the error record (R254). -/
theorem exec_failing {i : Instr} {s t : State} (hs : s.err = 0) (h : exec i s = .next t) (ht : t.err ≠ 0) :
    ∃ e, t = s.raise e i.opcode := by
  rcases exec_did h with ⟨herr, -⟩ | ⟨-, rfl⟩ | ⟨e, he, -⟩
  · exact absurd (herr.trans hs) ht
  · exact absurd rfl ht
  · exact ⟨e, he⟩

/-- A command word that ends in an error, legal or not, changes nothing but the error record (R254). -/
theorem dispatchWord_failing {w : Word} {s t : State} (hs : s.err = 0) (h : dispatchWord w s = .next t)
    (ht : t.err ≠ 0) : ∃ e op, t = s.raise e op := by
  rcases dispatchWord_cases h with rfl | ⟨i, hi⟩ | rfl
  · exact absurd hs ht
  · obtain ⟨e, he⟩ := exec_failing hs hi ht
    exact ⟨e, _, he⟩
  · exact ⟨_, _, rfl⟩

/-- While blocked, a word other than SRESET changes nothing (R255). -/
theorem dispatchWord_blocked {w : Word} {s : State} (hs : s.err ≠ 0) (hw : w ≠ sresetWord) :
    dispatchWord w s = .next s := by
  rw [dispatchWord, if_neg hs, blockedWrite, if_neg hw]
  exact ite_self _

/-- Settles O25: RES by command, then by the precise effect of a failing word and of a word written while blocked. -/
theorem onlyResultCommandsWriteRes : Obligations.OnlyResultCommandsWriteRes := by
  refine ⟨fun i s t h hne hop => exec_keeps_res h hne hop, fun w s t hs h ht => ?_, fun w s t hs h hw => ?_⟩
  · obtain ⟨e, op, rfl⟩ := dispatchWord_failing hs h ht
    rfl
  · rw [dispatchWord_blocked hs hw] at h
    cases h
    rfl

/-! ## The step that runs a command -/

/-- Out of the blocked state a legal word performs its command (R253). -/
theorem dispatchWord_legal {w : Word} {i : Instr} {s : State} (hs : s.err = 0) (hdec : decode w = .ok i) :
    dispatchWord w s = exec i s := by
  rw [dispatchWord, if_pos hs, commandWrite, hdec]

/-- A step on a pending CMD write of a legal word performs its command (R75, R253). -/
theorem step_cmdEvent {s : State} {w : Word} {i : Instr} {es : List HostEvent} (hin : s.inputs = cmdEvent w :: es)
    (hrst : s.rstN = true) (hs : s.err = 0) (hdec : decode w = .ok i) : step s = exec i (s.withInputs es) := by
  rw [step_event hin, hostEvent_cmd w (s.withInputs es) hrst]
  exact dispatchWord_legal hs hdec

/-- The fetch aid places the CMD write of the word itself. -/
theorem withFetchWord_inputs (s : State) (w : Word) :
    (s.withFetchWord 32 w.toNat).inputs = cmdEvent w :: s.inputs := by
  have hw : BitVec.ofNat 32 (w.toNat % 2 ^ 32) = w := by
    rw [Nat.mod_eq_of_lt w.isLt, BitVec.ofNat_toNat, BitVec.setWidth_eq]
  rw [State.withFetchWord, State.withInputs_inputs, hw]

/-- With `rst_n` released, taking the event that the fetch aid placed gives the state back. -/
theorem withFetchWord_taken {s : State} (hrst : s.rstN = true) (nbits w : Nat) :
    (s.withFetchWord nbits w).withInputs s.inputs = s := by
  have hlevel : s.withRstN true = s := by rw [State.withRstN, ← hrst]
  rw [State.withFetchWord, hlevel]
  rfl

/-- Settles O14: the pending word decodes to the command, the placed one because decoding undoes encoding. -/
theorem stepRunsTheDecodedCommand : Obligations.StepRunsTheDecodedCommand := by
  refine ⟨fun s w i es hin hrst hs hdec => step_cmdEvent hin hrst hs hdec, fun s i hrst hs hwf => ?_⟩
  have hstep := step_cmdEvent (withFetchWord_inputs s (encode i)) rfl hs (decode_encode i hwf)
  rwa [withFetchWord_taken hrst] at hstep

end Sys2Proof.Machine
end

section
/-! PROOFS of the memory family (20_memory.md R60 to R75): the register window and the order of the host's events, which
storage each command writes, and the little-endian order of the bits in both streams. -/

namespace Sys2Proof.Machine

/-! ## The register window -/

/-- An access that is not a whole aligned word of the window reaches no register (R71). -/
theorem accessReg_error {off size : Nat} (h : size ≠ 4 ∨ off % 4 ≠ 0 ∨ 0x20 ≤ off) :
    ∃ r, accessReg off size = .error r := by
  unfold accessReg
  split_ifs with hsize halign
  · exact ⟨_, rfl⟩
  · exact ⟨_, rfl⟩
  · have hout : registerMap[off / 4]? = none := by
      rw [List.getElem?_eq_none_iff, show registerMap.length = 8 from rfl]
      omega
    exact ⟨_, by rw [hout]⟩

/-- Every aligned word of the window is a register (R73). -/
theorem accessReg_ok {off : Nat} (halign : off % 4 = 0) (hlt : off < 0x20) : ∃ r, accessReg off 4 = .ok r := by
  have hin : off / 4 < registerMap.length := by
    rw [show registerMap.length = 8 from rfl]
    omega
  refine ⟨registerMap[off / 4], ?_⟩
  rw [accessReg, if_neg (by simp), if_neg (by simp [halign]), List.getElem?_eq_getElem hin]

theorem accessReg_offset (r : Reg) : accessReg r.offset 4 = .ok r := by cases r <;> decide

theorem hostEvent_read_refused {off size : Nat} {r : Refusal} (h : accessReg off size = .error r) (s : State) :
    hostEvent (.read off size) s = .refused r := by simp only [hostEvent, h]

theorem hostEvent_write_refused {off size : Nat} {r : Refusal} (h : accessReg off size = .error r) (v : Word)
    (s : State) : hostEvent (.write off size v) s = .refused r := by simp only [hostEvent, h]

theorem hostEvent_read_reaches {off size : Nat} {r : Reg} (h : accessReg off size = .ok r) (s : State) :
    hostEvent (.read off size) s = .next (s.respond (readReg r s)) := by simp only [hostEvent, h]

theorem hostEvent_write_reaches {off size : Nat} {r : Reg} (h : accessReg off size = .ok r) (v : Word) (s : State) :
    hostEvent (.write off size v) s = writeReg r v s := by simp only [hostEvent, h]

/-- Every command answers a next state (R250). -/
theorem exec_answers (i : Instr) (s : State) : ∃ t, exec i s = .next t := by
  obtain ⟨t, ht, -⟩ := exec_cases i s
  exact ⟨t, ht⟩

/-- Every CMD write answers a next state, whatever the word (R250, R253, R255). -/
theorem dispatchWord_answers (w : Word) (s : State) : ∃ t, dispatchWord w s = .next t := by
  unfold dispatchWord
  split
  · unfold commandWrite
    split
    · exact exec_answers _ s
    · exact ⟨_, rfl⟩
  · unfold blockedWrite
    split_ifs
    · exact exec_answers _ s
    · exact exec_answers _ s
    · exact ⟨_, rfl⟩

theorem writeReg_answers (r : Reg) (v : Word) (s : State) : ∃ t, writeReg r v s = .next t := by
  unfold writeReg
  split
  · cases r with
    | cmd => exact dispatchWord_answers v s
    | arg | res | status | wbits | rbits | ilen | tbln => exact ⟨_, rfl⟩
  · exact ⟨_, rfl⟩

/-- Settles O17: a refused access is one that reaches no register, and every register answers. -/
theorem accessesWithoutMeaningAreRefused : Obligations.AccessesWithoutMeaningAreRefused := by
  intro s off size v
  refine ⟨fun h => ?_, fun hsize halign hlt => ?_⟩
  · obtain ⟨r, hr⟩ := accessReg_error h
    exact ⟨⟨r, hostEvent_read_refused hr s⟩, r, hostEvent_write_refused hr v s⟩
  · subst hsize
    obtain ⟨r, hr⟩ := accessReg_ok halign hlt
    refine ⟨⟨_, hostEvent_read_reaches hr s⟩, ?_⟩
    rw [hostEvent_write_reaches hr v s]
    exact writeReg_answers r v s

/-- Settles O15: the eight pairs are the registers of R73 with their offsets and values. -/
theorem readsReturnTheRegisters : Obligations.ReadsReturnTheRegisters := by
  intro s hrst p hp
  change p ∈ registerMap.map fun r => (r.offset, regValue r s) at hp
  obtain ⟨r, -, rfl⟩ := List.mem_map.1 hp
  exact hostEvent_read r s hrst

/-- A write of a register other than CMD and ARG is ignored (R72). -/
theorem writeReg_ignored {r : Reg} (hcmd : r ≠ .cmd) (harg : r ≠ .arg) (v : Word) (s : State) :
    writeReg r v s = .next s := by
  unfold writeReg
  split
  · cases r with
    | cmd => exact absurd rfl hcmd
    | arg => exact absurd rfl harg
    | res | status | wbits | rbits | ilen | tbln => rfl
  · rfl

/-- Settles O16: CMD, ARG and the six other registers in turn, then a read of ARG after its write. -/
theorem writesReachOnlyCmdAndArg : Obligations.WritesReachOnlyCmdAndArg := by
  intro s v hrst
  refine ⟨hostEvent_cmd v s hrst, hostEvent_arg v s hrst, fun off hoff => ?_, fun t ht => ?_⟩
  · change off ∈ [Reg.res, .status, .wbits, .rbits, .ilen, .tbln].map Reg.offset at hoff
    obtain ⟨r, hr, rfl⟩ := List.mem_map.1 hoff
    rw [hostEvent_write_reaches (accessReg_offset r)]
    exact writeReg_ignored (by rintro rfl; simp at hr) (by rintro rfl; simp at hr) v s
  · obtain rfl : s.withArg v = t := by simpa using (hostEvent_arg v s hrst).symm.trans ht
    exact hostEvent_read .arg (s.withArg v) hrst

/-! ## The order of the host's events -/

section
variable (es : List HostEvent) (s : State)

/-- A command on a state with other pending events is the command, with those events put into its answer. -/
theorem exec_withInputs (i : Instr) : exec i (s.withInputs es) = mapNext (.withInputs es) (exec i s) := by
  obtain ⟨t, ht⟩ := exec_answers i s
  obtain ⟨-, hrst, -, hresp⟩ := exec_frame ht
  calc exec i (s.withInputs es) = mapNext (.withHostSide es s.responses s.rstN) (exec i s) :=
        exec_withHostSide es s.responses s.rstN s i
    _ = mapNext (.withInputs es) (exec i s) := by
        rw [ht, mapNext_next, mapNext_next, State.withHostSide, ← hrst, ← hresp]
        rfl

theorem dispatchWord_withInputs (w : Word) :
    dispatchWord w (s.withInputs es) = mapNext (.withInputs es) (dispatchWord w s) := by
  have hcommand : commandWrite w (s.withInputs es) = mapNext (.withInputs es) (commandWrite w s) := by
    unfold commandWrite
    cases decode w with
    | ok i => exact exec_withInputs es s i
    | error e => rfl
  simp only [dispatchWord, blockedWrite, hcommand, exec_withInputs, State.withInputs_err, apply_ite (mapNext _),
    mapNext_next]

theorem writeReg_withInputs (r : Reg) (v : Word) :
    writeReg r v (s.withInputs es) = mapNext (.withInputs es) (writeReg r v s) := by
  simp only [writeReg, State.withInputs_rstN, apply_ite (mapNext _), mapNext_next, dispatchWord_withInputs]
  cases r <;> rfl

theorem readReg_withInputs (r : Reg) : readReg r (s.withInputs es) = readReg r s := by cases r <;> rfl

/-- A host event does the same whatever is pending behind it, and leaves that pending. -/
theorem hostEvent_withInputs (e : HostEvent) :
    hostEvent e (s.withInputs es) = mapNext (.withInputs es) (hostEvent e s) := by
  cases e with
  | read off size =>
    simp only [hostEvent, readReg_withInputs]
    cases accessReg off size <;> rfl
  | write off size v =>
    simp only [hostEvent]
    cases accessReg off size with
    | error r => rfl
    | ok r => exact writeReg_withInputs es s r v
  | rst level => cases level <;> rfl

end

/-- The first of the events that end in a state ends in one too. -/
theorem runEvents_cons_next {e : HostEvent} {es : List HostEvent} {s t : State} (h : runEvents (e :: es) s = .next t) :
    ∃ u, hostEvent e s = .next u ∧ runEvents es u = .next t := by
  rw [runEvents] at h
  cases he : hostEvent e s with
  | next u =>
    rw [he] at h
    exact ⟨u, rfl, h⟩
  | fault f => cases f
  | refused r =>
    rw [he] at h
    cases h

/-- Running on after a step that answers. -/
theorem run_succ_of_next (M : Host.Core) {k : Nat} {s u : M.State} (h : M.step s = .next u) :
    M.run (k + 1) s = M.run k u := by rw [Host.Core.run, h]

/-- Settles O21, by induction on the events: a step takes the first, which does the same whatever is pending behind
it. -/
theorem stepsFollowTheHostsProgramOrder : Obligations.StepsFollowTheHostsProgramOrder := by
  intro es rest s t h
  induction es generalizing s with
  | nil => exact h
  | cons e es ih =>
    obtain ⟨u', hu', hrun⟩ := runEvents_cons_next h
    have hfront : mapNext (.withInputs rest) (hostEvent e s) = .next u' :=
      (hostEvent_withInputs rest s e).symm.trans hu'
    cases he : hostEvent e s with
    | next u =>
      obtain rfl : u.withInputs rest = u' := by simpa [he] using hfront
      have hstep : step (s.withInputs (e :: (es ++ rest))) = .next (u.withInputs (es ++ rest)) := by
        rw [step_event rfl]
        exact (hostEvent_withInputs (es ++ rest) s e).trans (by rw [he, mapNext_next])
      have hfirst : core.run (es.length + 1) (s.withInputs (e :: (es ++ rest))) =
          core.run es.length (u.withInputs (es ++ rest)) := run_succ_of_next core hstep
      exact hfirst.trans (ih u hrun)
    | fault f => cases f
    | refused r => simp [he, mapNext] at hfront

/-! ## Which storage a command writes -/

/-- What a command does where it raises no error, whatever values it writes: the registers and the storage it writes, and
that it writes nothing else (R60). -/
def Effect : Instr → State → State → Prop
  | .nop, s, t => t = s
  | .sreset, s, t => t = s.resetRegs
  | .tClr, s, t | .tRow _ _, s, t | .tCode _, s, t => ∃ rows, t = s.withTbl rows
  | .tRdrow, s, t | .wLen, s, t | .wGetb, s, t | .rPeek _, s, t => ∃ v, t = s.withRes v
  | .wTable, s, t | .wBits _, s, t | .wInt8, s, t | .wInt32, s, t | .wSym _, s, t => ∃ c, t = s.appendBits c
  | .wClr, s, t => t = s.withObuf []
  | .rClr, s, t => t = (s.withIbuf []).withRbits 0
  | .rPutb, s, t => ∃ b, t = s.withIbuf b
  | .rTake _, s, t | .rInt8, s, t | .rInt32, s, t | .rSym, s, t => ∃ v p, t = (s.withRes v).withRbits p
  | .rTable, s, t => ∃ rows p v, t = ((s.withTbl rows).withRbits p).withRes v

/-- A checked append appends or raises. -/
theorem appendChecked_effect {op : Byte} {c : Bits} {s t : State} (h : appendChecked op c s = .next t) :
    (∃ e, t = s.raise e op) ∨ ∃ c, t = s.appendBits c := by
  rcases appendChecked_cases h with ⟨-, ht⟩ | ⟨-, ht⟩
  · exact .inl ⟨_, ht⟩
  · exact .inr ⟨_, ht⟩

/-- A checked read writes RES and RBITS or raises. -/
theorem readChecked_effect {op : Byte} {n adv : Nat} {s t : State} (h : readChecked op n adv s = .next t) :
    (∃ e, t = s.raise e op) ∨ ∃ v, t = (s.withRes v).withRbits (s.rbits + adv) := by
  rcases readChecked_cases h with ⟨-, ht⟩ | ⟨-, ht⟩
  · exact .inl ⟨_, ht⟩
  · exact .inr ⟨_, ht⟩

/-- A command raises an error or has its effect. -/
theorem exec_effect {i : Instr} {s t : State} (h : exec i s = .next t) :
    (∃ e, t = s.raise e i.opcode) ∨ Effect i s t := by
  cases i with
  | nop | sreset | wClr | rClr => cases h; exact .inr rfl
  | tClr | wLen => cases h; exact .inr ⟨_, rfl⟩
  | wBits | wInt8 | wInt32 => exact appendChecked_effect h
  | rPeek => exact readChecked_effect h
  | rTake | rInt8 | rInt32 => exact (readChecked_effect h).imp_right fun ⟨v, hv⟩ => ⟨v, _, hv⟩
  | tRow sym len =>
    simp only [exec, execTRow] at h
    split_ifs at h <;> cases h
    · exact .inl ⟨_, rfl⟩
    · exact .inl ⟨_, rfl⟩
    · exact .inr ⟨_, rfl⟩
  | tCode n =>
    simp only [exec, execTCode] at h
    split at h
    · cases h; exact .inl ⟨_, rfl⟩
    · split_ifs at h <;> cases h
      · exact .inl ⟨_, rfl⟩
      · exact .inr ⟨_, rfl⟩
  | tRdrow =>
    simp only [exec, execTRdrow] at h
    split at h <;> cases h
    · exact .inl ⟨_, rfl⟩
    · exact .inr ⟨_, rfl⟩
  | wTable =>
    simp only [exec, execWTable] at h
    split_ifs at h
    · cases h; exact .inl ⟨_, rfl⟩
    · cases h; exact .inl ⟨_, rfl⟩
    · exact appendChecked_effect h
  | wSym sym =>
    simp only [exec, execWSym] at h
    split_ifs at h
    · cases h; exact .inl ⟨_, rfl⟩
    · split at h
      · cases h; exact .inl ⟨_, rfl⟩
      · exact appendChecked_effect h
  | wGetb =>
    simp only [exec, execWGetb] at h
    split_ifs at h <;> cases h
    · exact .inl ⟨_, rfl⟩
    · exact .inr ⟨_, rfl⟩
  | rPutb =>
    simp only [exec, execRPutb] at h
    split_ifs at h <;> cases h
    · exact .inl ⟨_, rfl⟩
    · exact .inr ⟨_, rfl⟩
  | rTable =>
    simp only [exec, execRTable] at h
    split at h <;> cases h
    · exact .inl ⟨_, rfl⟩
    · exact .inr ⟨_, _, _, rfl⟩
  | rSym =>
    simp only [exec, execRSym] at h
    split_ifs at h
    · cases h; exact .inl ⟨_, rfl⟩
    · split at h <;> cases h
      · exact .inl ⟨_, rfl⟩
      · exact .inr ⟨_, _, rfl⟩

/-- Settles O26: an error writes no storage, and the effect of each command writes only its own. -/
theorem storageChangesOnlyByItsCommands : Obligations.StorageChangesOnlyByItsCommands := by
  intro i s t h hne
  rcases exec_effect h with ⟨e, rfl⟩ | heff
  · simp
  · cases i with
    | sreset => exact absurd rfl hne
    | nop | wClr | rClr => cases heff; simp [Instr.opcode]
    | tClr | tRow | tCode | tRdrow | wLen | wGetb | rPeek => obtain ⟨_, rfl⟩ := heff; simp [Instr.opcode]
    | wTable | wBits | wInt8 | wInt32 | wSym | rPutb => obtain ⟨_, rfl⟩ := heff; simp [Instr.opcode]
    | rTake | rInt8 | rInt32 | rSym => obtain ⟨_, _, rfl⟩ := heff; simp [Instr.opcode]
    | rTable => obtain ⟨_, _, _, rfl⟩ := heff; simp [Instr.opcode]

/-! ## The writer's stream -/

/-- A command other than SRESET and W_CLR puts bits, perhaps none, behind those of the writer's stream (R64). -/
theorem exec_obuf_append {i : Instr} {s t : State} (h : exec i s = .next t) (hreset : i ≠ .sreset)
    (hclr : i ≠ .wClr) : ∃ c, t.obuf = (s.appendBits c).obuf := by
  obtain ⟨-, hkeep, -, -⟩ := storageChangesOnlyByItsCommands i s t h hreset
  by_cases hop : i.opcode ∈ [0x14, 0x20, 0x21, 0x22, 0x23, 0x24]
  · rcases exec_effect h with ⟨e, rfl⟩ | heff
    · exact ⟨[], by simp⟩
    · cases i with
      | wClr => exact absurd rfl hclr
      | wTable | wBits | wInt8 | wInt32 | wSym => obtain ⟨c, rfl⟩ := heff; exact ⟨c, rfl⟩
      | _ => simp [Instr.opcode] at hop
  · exact ⟨[], by simp [hkeep hop]⟩

/-- Settles O27: an append moves no bit of the stream. -/
theorem writerStreamOnlyGrows : Obligations.WriterStreamOnlyGrows := by
  intro i s t h hreset hclr
  obtain ⟨c, hc⟩ := exec_obuf_append h hreset hclr
  have hwbits : t.wbits = (s.appendBits c).wbits := congrArg List.length hc
  refine ⟨by rw [hwbits, wbits_appendBits]; exact Nat.le_add_right _ _, fun k hk => ?_⟩
  calc t.outBit k = (s.appendBits c).outBit k := congrArg (fun b : Bits => b.getD k false) hc
    _ = s.outBit k := outBit_appendBits_lt s c hk

/-- On a byte boundary, appending the bits of a value makes the next stream bytes its bytes, least significant first
(R62). -/
theorem outByte_appendBits_bitsOf {w : Nat} {s : State} (v : BitVec w) {n i : Nat} (halign : s.wbits % 8 = 0)
    (hi : 8 * i + 8 ≤ n) : (s.appendBits (bitsOf n v)).outByte (s.wbits / 8 + i) = v.extractLsb' (8 * i) 8 := by
  refine BitVec.eq_of_getLsbD_eq fun b hb => ?_
  have hpos : 8 * (s.wbits / 8 + i) + b = s.wbits + (8 * i + b) := by omega
  have hlt : 8 * i + b < n := by omega
  rw [getLsbD_outByte _ _ _ hb, hpos, outBit_appendBits_ge, getD_bitsOf, BitVec.getLsbD_extractLsb']
  simp [hb, hlt]

/-- W_INT32 where the bits fit (R133). -/
theorem exec_wInt32_fits {s : State} (h : s.wbits + 32 ≤ s.cfg.outCapBits) :
    exec .wInt32 s = .next (s.appendBits (bitsOf 32 s.arg)) :=
  appendChecked_fits (by simpa [State.argWordBits] using h)

/-- W_INT8 where the bits fit (R132). -/
theorem exec_wInt8_fits {s : State} (h : s.wbits + 8 ≤ s.cfg.outCapBits) :
    exec .wInt8 s = .next (s.appendBits (bitsOf 8 s.argByte)) :=
  appendChecked_fits (by simpa using h)

/-- Bit j of byte i of a register is its bit 8i+j (R70). -/
theorem getLsbD_wordByte (v : Word) (i : Nat) {j : Nat} (hj : j < 8) :
    (wordByte v i).getLsbD j = v.getLsbD (8 * i + j) := by
  rw [wordByte, BitVec.getLsbD_extractLsb', decide_eq_true hj, Bool.true_and]

/-- Settles O32: the appended integer on a byte boundary, byte by byte. -/
theorem alignedIntegersAreLittleEndianBytes : Obligations.AlignedIntegersAreLittleEndianBytes := by
  intro s t halign
  refine ⟨fun hfit h => ?_, fun hfit h => ?_, fun i _ j hj => getLsbD_wordByte s.arg i hj⟩
  · obtain rfl : s.appendBits (bitsOf 32 s.arg) = t := by simpa using (exec_wInt32_fits hfit).symm.trans h
    have hbyte : ∀ i < 4, (s.appendBits (bitsOf 32 s.arg)).outByte (s.wbits / 8 + i) = s.arg.extractLsb' (8 * i) 8 :=
      fun i hi => outByte_appendBits_bitsOf s.arg halign (by omega)
    exact ⟨hbyte 0 (by omega), hbyte 1 (by omega), hbyte 2 (by omega), hbyte 3 (by omega)⟩
  · obtain rfl : s.appendBits (bitsOf 8 s.argByte) = t := by simpa using (exec_wInt8_fits hfit).symm.trans h
    calc (s.appendBits (bitsOf 8 s.argByte)).outByte (s.wbits / 8 + 0) = s.argByte.extractLsb' (8 * 0) 8 :=
          outByte_appendBits_bitsOf s.argByte halign (by omega)
      _ = s.argByte := BitVec.extractLsb'_eq_self

/-- Settles O35: a stored bit is read as it is, and from WBITS on a read gives 0, so in the last packed byte too. -/
theorem paddingBitsAreZero : Obligations.PaddingBitsAreZero := by
  intro s
  refine ⟨fun k b hk => ?_, fun k hk => outBit_ge s hk, by omega, fun b hb hpad => ?_⟩
  · rw [State.outBit, List.getD_eq_getElem?_getD, hk, Option.getD_some]
  · rw [getLsbD_outByte _ _ _ hb]
    exact outBit_ge s hpad

/-! ## The reader's stream -/

/-- The number of two bit sequences in a row: the first is its low part (R62). -/
theorem ofNat_ofBits_append (w : Nat) (b c : Bits) :
    BitVec.ofNat w (ofBits (b ++ c)) = BitVec.ofNat w (ofBits b) ||| BitVec.ofNat w (ofBits c) <<< b.length := by
  refine BitVec.eq_of_getLsbD_eq fun k hk => ?_
  simp only [BitVec.getLsbD_or, BitVec.getLsbD_shiftLeft, getLsbD_ofNat_ofBits]
  by_cases hlow : k < b.length
  · rw [List.getD_append _ _ _ _ hlow]
    simp [hk, hlow]
  · have hout : b.getD k false = false := by simp [List.getD_eq_getElem?_getD, Nat.le_of_not_lt hlow]
    have hk' : k - b.length < w := by omega
    rw [List.getD_append_right _ _ _ _ (Nat.le_of_not_lt hlow), hout]
    simp [hk, hlow, hk']

/-- The next n bits read into RES and consumed (R67). -/
def State.takeBits (n : Nat) (s : State) : State :=
  (s.withRes (BitVec.ofNat 32 (ofBits (s.inBits s.rbits n)))).withRbits (s.rbits + n)

/-- R_INT8 with enough bits left (R154). -/
theorem exec_rInt8_enough {s : State} (h : 8 ≤ s.inRem) : exec .rInt8 s = .next (s.takeBits 8) := readChecked_enough h

/-- R_INT32 with enough bits left (R155). -/
theorem exec_rInt32_enough {s : State} (h : 32 ≤ s.inRem) : exec .rInt32 s = .next (s.takeBits 32) :=
  readChecked_enough h

@[simp] theorem takeBits_res (s : State) (n : Nat) :
    (s.takeBits n).res = BitVec.ofNat 32 (ofBits (s.inBits s.rbits n)) := rfl

@[simp] theorem takeBits_rbits (s : State) (n : Nat) : (s.takeBits n).rbits = s.rbits + n := rfl

@[simp] theorem inBits_takeBits (s : State) (n p m : Nat) : (s.takeBits n).inBits p m = s.inBits p m := rfl

@[simp] theorem inRem_takeBits (s : State) (n : Nat) : (s.takeBits n).inRem = s.inRem - n :=
  (Nat.sub_sub (8 * s.ilen) s.rbits n).symm

/-- A word of the reader's stream is its four bytes, the first least significant (R69). -/
theorem ofNat_ofBits_inBits_32 (s : State) (p : Nat) :
    BitVec.ofNat 32 (ofBits (s.inBits p 32)) =
      BitVec.ofNat 32 (ofBits (s.inBits p 8)) ||| BitVec.ofNat 32 (ofBits (s.inBits (p + 8) 8)) <<< 8 |||
        BitVec.ofNat 32 (ofBits (s.inBits (p + 16) 8)) <<< 16 |||
        BitVec.ofNat 32 (ofBits (s.inBits (p + 24) 8)) <<< 24 := by
  have hbytes : s.inBits p 32 =
      s.inBits p 8 ++ s.inBits (p + 8) 8 ++ s.inBits (p + 16) 8 ++ s.inBits (p + 24) 8 := by
    rw [← inBits_append, ← inBits_append, ← inBits_append]
  simp only [hbytes, ofNat_ofBits_append, List.length_append, length_inBits, Nat.reduceAdd]

/-- Settles O42: each R_INT8 leaves enough bits for the next, and the four read the bytes of the word that R_INT32
reads. -/
theorem int32IsFourInt8 : Obligations.Int32IsFourInt8 := by
  intro s h
  have hb : 8 ≤ (s.takeBits 8).inRem := by rw [inRem_takeBits]; omega
  have hc : 8 ≤ ((s.takeBits 8).takeBits 8).inRem := by simp only [inRem_takeBits]; omega
  have hd : 8 ≤ (((s.takeBits 8).takeBits 8).takeBits 8).inRem := by simp only [inRem_takeBits]; omega
  refine ⟨_, _, _, _, _, exec_rInt32_enough h, exec_rInt8_enough (by omega), exec_rInt8_enough hb,
    exec_rInt8_enough hc, exec_rInt8_enough hd, ?_, ?_⟩
  · simp only [takeBits_res, takeBits_rbits, inBits_takeBits, Nat.add_assoc, Nat.reduceAdd, ofNat_ofBits_inBits_32]
  · simp only [takeBits_rbits, Nat.add_assoc, Nat.reduceAdd]

end Sys2Proof.Machine
end

section
/-! PROOFS of the encoding family (30_encoding.md R91 to R96): the four fields determine a word, which fields of a word
make it select a row of the opcode map, and that the legal words are the words of the legal commands. -/

namespace Sys2Proof.Machine

/-! ## The fields of a word -/

/-- A word is its four fields (R91). -/
theorem fields_append (w : Word) : rsvField w ++ sField w ++ nField w ++ opField w = w := by
  have hhigh : rsvField w ++ sField w = w.extractLsb' 16 16 := BitVec.extractLsb'_append_extractLsb'_eq_extractLsb' rfl
  have hupper : w.extractLsb' 16 16 ++ nField w = w.extractLsb' 8 24 :=
    BitVec.extractLsb'_append_extractLsb'_eq_extractLsb' rfl
  have hall : w.extractLsb' 8 24 ++ opField w = w.extractLsb' 0 32 :=
    BitVec.extractLsb'_append_extractLsb'_eq_extractLsb' rfl
  rw [hhigh, hupper, hall, BitVec.extractLsb'_eq_self]

/-- Words with the same fields are equal (R91). -/
theorem word_eq_iff {v w : Word} : v = w ↔
    opField v = opField w ∧ nField v = nField w ∧ sField v = sField w ∧ rsvField v = rsvField w := by
  refine ⟨by rintro rfl; exact ⟨rfl, rfl, rfl, rfl⟩, fun ⟨hop, hn, hs, hrsv⟩ => ?_⟩
  rw [← fields_append v, ← fields_append w, hop, hn, hs, hrsv]

@[simp] theorem opField_encode (i : Instr) : opField (encode i) = i.opcode :=
  (Laws.WordFields.fields_of_append i.opcode i.nOperand i.sOperand).1

@[simp] theorem rsvField_encode (i : Instr) : rsvField (encode i) = 0 :=
  (Laws.WordFields.fields_of_append i.opcode i.nOperand i.sOperand).2.2.2

/-! ## What a row of the opcode map says of the fields -/

/-- The OPs that take N (R95). -/
abbrev nOps : List Byte := [0x11, 0x12, 0x21, 0x32, 0x33]

/-- The OPs that take S (R95). -/
abbrev sOps : List Byte := [0x11, 0x24]

/-- The OPs whose N is a chunk count (R93). -/
abbrev chunkOps : List Byte := [0x12, 0x21, 0x32, 0x33]

/-- A pattern is a bare OP, and a mask covers RSV and the fields its OP does not take (R94, R95). -/
theorem row_fields : ∀ r ∈ opcodeMap,
    nField r.pattern = 0 ∧ sField r.pattern = 0 ∧ rsvField r.pattern = 0 ∧
    nField r.mask = (if opField r.pattern ∈ nOps then 0 else 0xFF) ∧
    sField r.mask = (if opField r.pattern ∈ sOps then 0 else 0xFF) ∧ rsvField r.mask = 0xFF := by decide

/-- A row builds the command of its OP from the fields that OP takes, and the command is legal unless it has a chunk count
above 32. -/
theorem row_build (n s : Byte) : ∀ r ∈ opcodeMap,
    (r.build n s).opcode = opField r.pattern ∧
    (r.build n s).nOperand = (if opField r.pattern ∈ nOps then n else 0) ∧
    (r.build n s).sOperand = (if opField r.pattern ∈ sOps then s else 0) ∧
    (r.build n s).wf = (if opField r.pattern ∈ chunkOps then legalCount n else true) := by
  simp only [opcodeMap, controlTableRows, writerRows, readerRows, List.cons_append, List.nil_append,
    List.forall_mem_cons, List.not_mem_nil, false_implies, implies_true, and_true]
  and_intros <;> rfl

theorem row_build_wf_iff {r : OpRow} (hr : r ∈ opcodeMap) (n s : Byte) :
    (r.build n s).wf = true ↔ (opField r.pattern ∈ chunkOps → n.toNat ≤ 32) := by
  obtain ⟨-, -, -, hwf⟩ := row_build n s r hr
  rw [hwf, ite_eq_right_iff, legalCount, decide_eq_true_iff]

/-- A field under a mask that covers it exactly where `p` fails. -/
theorem and_mask_eq_zero_iff (p : Prop) [Decidable p] (f : Byte) : f &&& (if p then 0 else 0xFF) = 0 ↔ p ∨ f = 0 := by
  have hall : f &&& 0xFF#8 = f := BitVec.and_allOnes
  split_ifs with hp <;> simp [hp, hall]

/-- A word selects a row when it has the row's OP and every field that OP does not take is 0 (R94, R95). -/
theorem selects_iff {r : OpRow} {w : Word} (hr : r ∈ opcodeMap) : r.selects w = true ↔
    opField w = opField r.pattern ∧ (opField r.pattern ∈ nOps ∨ nField w = 0) ∧
    (opField r.pattern ∈ sOps ∨ sField w = 0) ∧ rsvField w = 0 := by
  obtain ⟨hnp, hsp, hrp, hnm, hsm, hrm⟩ := row_fields r hr
  have hop : opField (w &&& r.mask) = opField w := by
    rw [opField, BitVec.extractLsb'_and, ← opField, ← opField, opField_mask_of_mem r hr]
    exact BitVec.and_allOnes
  have hn : nField (w &&& r.mask) = nField w &&& nField r.mask := BitVec.extractLsb'_and
  have hs : sField (w &&& r.mask) = sField w &&& sField r.mask := BitVec.extractLsb'_and
  have hrsv : rsvField (w &&& r.mask) = rsvField w := by
    rw [rsvField, BitVec.extractLsb'_and, ← rsvField, ← rsvField, hrm]
    exact BitVec.and_allOnes
  rw [OpRow.selects, beq_iff_eq, word_eq_iff, hop, hn, hs, hrsv, hnp, hsp, hrp, hnm, hsm, and_mask_eq_zero_iff,
    and_mask_eq_zero_iff]

/-! ## The decoder and the encoder -/

/-- Settles O10: every command decodes through its own row. -/
theorem decodeOfEncodeIsTheCommand : Obligations.DecodeOfEncodeIsTheCommand := decode_encode

/-- A word decodes to a command when it selects a row that builds the command and the command is legal (R253). -/
theorem decode_eq_ok_iff {w : Word} {i : Instr} : decode w = .ok i ↔
    ∃ r ∈ opcodeMap, r.selects w = true ∧ r.build (nField w) (sField w) = i ∧ i.wf = true := by
  constructor
  · intro h
    unfold decode at h
    split at h
    · rename_i r hfind
      split at h
      · cases h
        exact ⟨r, List.mem_of_find?_eq_some hfind, List.find?_some (p := fun r : OpRow => r.selects w) hfind, rfl, ‹_›⟩
      · cases h
    · split at h <;> cases h
  · rintro ⟨r, hr, hsel, rfl, hwf⟩
    exact decode_of_selects hr hsel hwf

/-- The word that selects a row is the word of the command the row builds from it: the fields the command does not take
are 0 in both. -/
theorem encode_build_of_selects {r : OpRow} {w : Word} (hr : r ∈ opcodeMap) (h : r.selects w = true) :
    encode (r.build (nField w) (sField w)) = w := by
  obtain ⟨hop, hn, hs, hrsv⟩ := (selects_iff hr).1 h
  obtain ⟨hopcode, hnOperand, hsOperand, -⟩ := row_build (nField w) (sField w) r hr
  rw [word_eq_iff, opField_encode, nField_encode, sField_encode, rsvField_encode, hopcode, hnOperand, hsOperand]
  refine ⟨hop.symm, ?_, ?_, hrsv.symm⟩
  · exact ite_eq_left_iff.2 fun hnot => (hn.resolve_left hnot).symm
  · exact ite_eq_left_iff.2 fun hnot => (hs.resolve_left hnot).symm

/-- Settles O11: a word that decodes selects the row that builds the command. -/
theorem encodeOfDecodeIsTheWord : Obligations.EncodeOfDecodeIsTheWord := by
  intro w i h
  obtain ⟨r, hr, hsel, rfl, hwf⟩ := decode_eq_ok_iff.1 h
  exact ⟨hwf, encode_build_of_selects hr hsel⟩

/-- Settles O9, by running the decoder on the ten words. -/
theorem sampleWordsDecode : Obligations.SampleWordsDecode := by
  unfold Obligations.SampleWordsDecode
  decide

/-! ## The illegal words -/

/-- An OP of no row of the opcode map, as the ranges of R96. -/
abbrev UnknownOp (op : Byte) : Prop :=
  (0x02 ≤ op ∧ op ≤ 0x0F) ∨ (0x16 ≤ op ∧ op ≤ 0x1F) ∨ (0x27 ≤ op ∧ op ≤ 0x2F) ∨ 0x37 ≤ op

theorem exists_row_iff (op : Byte) : (∃ r ∈ opcodeMap, op = opField r.pattern) ↔ ¬ UnknownOp op := by
  have hops : opcodeMap.map (fun r => opField r.pattern) =
      [0x00, 0x01, 0x10, 0x11, 0x12, 0x13, 0x14, 0x15, 0x20, 0x21, 0x22, 0x23, 0x24, 0x25, 0x26, 0x30, 0x31, 0x32,
        0x33, 0x34, 0x35, 0x36] := by decide
  have hmem : (∃ r ∈ opcodeMap, op = opField r.pattern) ↔ op ∈ opcodeMap.map fun r => opField r.pattern := by
    simp only [List.mem_map, eq_comm]
  rw [hmem, hops]
  simp only [UnknownOp, List.mem_cons, List.not_mem_nil, or_false, ← BitVec.toNat_inj, BitVec.le_def, BitVec.toNat_ofNat,
    BitVec.ofNat_eq_ofNat]
  omega

/-- The legal words, field by field (R96). -/
theorem decodes_iff (w : Word) : (∃ i, decode w = .ok i) ↔
    ¬ UnknownOp (opField w) ∧ rsvField w = 0 ∧ (opField w ∈ nOps ∨ nField w = 0) ∧
    (opField w ∈ sOps ∨ sField w = 0) ∧ (opField w ∈ chunkOps → (nField w).toNat ≤ 32) := by
  constructor
  · rintro ⟨i, h⟩
    obtain ⟨r, hr, hsel, rfl, hwf⟩ := decode_eq_ok_iff.1 h
    obtain ⟨hop, hn, hs, hrsv⟩ := (selects_iff hr).1 hsel
    have hcount := (row_build_wf_iff hr _ _).1 hwf
    rw [← hop] at hn hs hcount
    exact ⟨(exists_row_iff _).1 ⟨r, hr, hop⟩, hrsv, hn, hs, hcount⟩
  · rintro ⟨hknown, hrsv, hn, hs, hcount⟩
    obtain ⟨r, hr, hop⟩ := (exists_row_iff _).2 hknown
    rw [hop] at hn hs hcount
    exact ⟨_, decode_eq_ok_iff.2
      ⟨r, hr, (selects_iff hr).2 ⟨hop, hn, hs, hrsv⟩, rfl, (row_build_wf_iff hr _ _).2 hcount⟩⟩

theorem rejected_iff_not_decodes (w : Word) : (∃ e, decode w = .error e) ↔ ¬ ∃ i, decode w = .ok i := by
  cases decode w <;> simp

/-- Settles O12: the rejected words are those that are not legal field by field, two selected rows have one OP, and an
illegal word goes to E_ILLEGAL. -/
theorem illegalWordsAreThoseOfTheSpec : Obligations.IllegalWordsAreThoseOfTheSpec := by
  refine ⟨fun w => ?_, fun w r₁ hr₁ r₂ hr₂ h₁ h₂ => ?_, fun w s e hs he => ?_⟩
  · rw [rejected_iff_not_decodes, decodes_iff]
    simp only [not_and_or, not_not, not_or, Classical.not_imp, not_le, ne_eq]
  · rw [eq_of_selects hr₁ hr₂ h₁ h₂]
    exact ⟨rfl, rfl⟩
  · rw [dispatchWord, if_pos hs, commandWrite, he]
    rfl

end Sys2Proof.Machine
end

section
/-! PROOFS about the pseudo-instructions (30_encoding.md R99): the lines that move a bit string through ARG in chunks of
at most 32 bits. -/

namespace Sys2Proof.Machine

/-! ## One chunk -/

/-- The bits of a sequence come back from a wider field that holds its number. -/
theorem bitsOf_ofNat_ofBits_of_le {w : Nat} {c : Bits} (h : c.length ≤ w) :
    bitsOf c.length (BitVec.ofNat w (ofBits c)) = c := by
  refine bits_ext (length_bitsOf _ _) fun k hk => ?_
  rw [length_bitsOf] at hk
  have hkw : k < w := by omega
  rw [getD_bitsOf, getLsbD_ofNat_ofBits]
  simp [hk, hkw]

/-- The word of a chunk, its first bit in bit 0 (R99). -/
def chunkWord (c : Bits) : Word := BitVec.ofNat 32 (ofBits c)

/-- The count N of a chunk (R99). -/
def chunkCount (c : Bits) : Byte := BitVec.ofNat 8 c.length

theorem toNat_chunkCount {c : Bits} (h : c.length ≤ 32) : (chunkCount c).toNat = c.length := by
  rw [chunkCount, BitVec.toNat_ofNat, Nat.mod_eq_of_lt (by omega)]

/-- A command that takes N bits of ARG takes the chunk from the word and count the assembler makes of it. -/
theorem argChunk_chunk (s : State) {c : Bits} (h : c.length ≤ 32) :
    (s.withArg (chunkWord c)).argChunk (chunkCount c) = c := by
  rw [State.argChunk, count, toNat_chunkCount h]
  exact bitsOf_ofNat_ofBits_of_le h

theorem chunks_succ {b : Bits} (hb : b ≠ []) (fuel : Nat) :
    chunks (fuel + 1) b = b.take 32 :: chunks fuel (b.drop 32) := by rw [chunks, if_neg hb]

/-! ## The host accesses of a line -/

theorem runEvents_cons {e : HostEvent} {s t : State} (h : hostEvent e s = .next t) (es : List HostEvent) :
    runEvents (e :: es) s = runEvents es t := by rw [runEvents, h]

/-- A line of a legal command without an operand in ARG performs the command (R98, R253). -/
theorem runEvents_line {i : Instr} {s t : State} (hrst : s.rstN = true) (herr : s.err = 0) (hwf : i.wf = true)
    (h : exec i s = .next t) (p : List Line) :
    runEvents (programEvents (.cmd i none :: p)) s = runEvents (programEvents p) t := by
  have hcmd : hostEvent (cmdEvent (encode i)) s = .next t := by
    rw [hostEvent_cmd _ s hrst, dispatchWord_legal herr (decode_encode i hwf), h]
  exact runEvents_cons hcmd (programEvents p)

/-- A line of a legal command with an operand sets ARG and performs the command (R98, R253). -/
theorem runEvents_line_arg {i : Instr} {v : Word} {s t : State} (hrst : s.rstN = true) (herr : s.err = 0)
    (hwf : i.wf = true) (h : exec i (s.withArg v) = .next t) (p : List Line) :
    runEvents (programEvents (.cmd i (some v) :: p)) s = runEvents (programEvents p) t :=
  (runEvents_cons (hostEvent_arg v s hrst) (cmdEvent (encode i) :: programEvents p)).trans
    (runEvents_line (s := s.withArg v) hrst herr hwf h p)

/-! ## All chunks -/

/-- The lines of the chunks of a bit string; `chunkLines` gives as many rounds of fuel as the string has bits. -/
def chunkLinesFrom (mk : Byte → Instr) (fuel : Nat) (b : Bits) : List Line :=
  (chunks fuel b).map fun c => .cmd (mk (chunkCount c)) (some (chunkWord c))

theorem chunkLinesFrom_length (mk : Byte → Instr) (b : Bits) : chunkLinesFrom mk b.length b = chunkLines mk b := rfl

/-- `load d a` are the states of a machine that takes a string of at most `bound` bits chunk by chunk: `d` has been taken
and ARG is `a`. The command `mk N` takes the N bits of ARG. -/
structure TakesChunks (mk : Byte → Instr) (bound : Nat) (load : Bits → Word → State) : Prop where
  released : ∀ d a, (load d a).rstN = true
  noError : ∀ d a, (load d a).err = 0
  legal : ∀ n : Byte, n.toNat ≤ 32 → (mk n).wf = true
  takes : ∀ d c a, c.length ≤ 32 → d.length + c.length ≤ bound →
    exec (mk (chunkCount c)) ((load d a).withArg (chunkWord c)) = .next (load (d ++ c) (chunkWord c))

/-- By induction on the chunks, a string that is taken chunk by chunk is taken whole. -/
theorem TakesChunks.runEvents_chunkLinesFrom {mk : Byte → Instr} {bound : Nat} {load : Bits → Word → State}
    (h : TakesChunks mk bound load) (fuel : Nat) (b d : Bits) (a : Word) (hfuel : b.length ≤ fuel)
    (hfit : d.length + b.length ≤ bound) :
    ∃ a', runEvents (programEvents (chunkLinesFrom mk fuel b)) (load d a) = .next (load (d ++ b) a') := by
  induction fuel generalizing b d a with
  | zero =>
    obtain rfl : b = [] := List.length_eq_zero_iff.1 (Nat.le_zero.1 hfuel)
    rw [List.append_nil]
    exact ⟨a, rfl⟩
  | succ fuel ih =>
    by_cases hb : b = []
    · subst hb
      rw [List.append_nil]
      exact ⟨a, rfl⟩
    · have hpos : 0 < b.length := List.length_pos_of_ne_nil hb
      have hlen : (b.take 32).length ≤ 32 := List.length_take_le 32 b
      have hsplit : (b.take 32).length + (b.drop 32).length = b.length := by
        rw [← List.length_append, List.take_append_drop]
      have hwf := h.legal (chunkCount (b.take 32)) (by rwa [toNat_chunkCount hlen])
      have htake := h.takes d (b.take 32) a hlen (by omega)
      obtain ⟨a', hrest⟩ := ih (b.drop 32) (d ++ b.take 32) (chunkWord (b.take 32))
        (by rw [List.length_drop]; omega) (by rw [List.length_append]; omega)
      rw [List.append_assoc, List.take_append_drop] at hrest
      refine ⟨a', ?_⟩
      rw [chunkLinesFrom, chunks_succ hb, List.map_cons,
        runEvents_line_arg (h.released d a) (h.noError d a) hwf htake]
      exact hrest

/-- The lines of a bit string leave the state that has taken all of it. -/
theorem TakesChunks.runEvents_chunkLines {mk : Byte → Instr} {bound : Nat} {load : Bits → Word → State}
    (h : TakesChunks mk bound load) {b : Bits} (a : Word) (hfit : b.length ≤ bound) :
    ∃ a', runEvents (programEvents (chunkLines mk b)) (load [] a) = .next (load b a') := by
  rw [← chunkLinesFrom_length]
  exact h.runEvents_chunkLinesFrom b.length b [] a le_rfl (by simpa using hfit)

/-! ## w_code -/

/-- W_BITS where the bits fit (R131). -/
theorem exec_wBits_fits {n : Byte} {s : State} (h : s.wbits + n.toNat ≤ s.cfg.outCapBits) :
    exec (.wBits n) s = .next (s.appendBits (s.argChunk n)) :=
  appendChecked_fits (by simpa [State.argChunk, count] using h)

/-- The state `s` with `d` appended to the writer's stream and `a` in ARG. -/
def State.written (s : State) (d : Bits) (a : Word) : State := (s.appendBits d).withArg a

theorem written_nil (s : State) : s.written [] s.arg = s := by
  rw [State.written, State.appendBits, List.append_nil]
  rfl

theorem appendBits_written (s : State) (d c : Bits) (a v : Word) :
    ((s.written d a).withArg v).appendBits c = s.written (d ++ c) v :=
  congrArg (fun b => (s.withObuf b).withArg v) (List.append_assoc s.obuf d c)

theorem wBits_takesChunks {s : State} {bound : Nat} (hrst : s.rstN = true) (herr : s.err = 0)
    (hroom : s.wbits + bound ≤ s.cfg.outCapBits) : TakesChunks .wBits bound s.written where
  released _ _ := hrst
  noError _ _ := herr
  legal n hn := decide_eq_true hn
  takes d c a hlen hfit := by
    have hroom' : (s.appendBits d).wbits + (chunkCount c).toNat ≤ s.cfg.outCapBits := by
      rw [wbits_appendBits, toNat_chunkCount hlen]
      omega
    have hexec := exec_wBits_fits (s := (s.written d a).withArg (chunkWord c)) hroom'
    rwa [argChunk_chunk _ hlen, appendBits_written] at hexec

/-- Settles O36: W_BITS takes the string chunk by chunk. -/
theorem wCodeAppendsTheWholeBitString : Obligations.WCodeAppendsTheWholeBitString := by
  intro b s hrst herr hroom
  obtain ⟨a, hrun⟩ := (wBits_takesChunks hrst herr hroom).runEvents_chunkLines s.arg le_rfl
  rw [written_nil] at hrun
  exact ⟨s.written b a, hrun, rfl⟩

/-! ## t_load -/

/-- T_ROW with a length and room for a row (R171). -/
theorem exec_tRow_room {sym len : Byte} {s : State} (hlen : len ≠ 0) (hroom : s.tbln ≠ 256) :
    exec (.tRow sym len) s = .next (s.withTbl (s.tbl ++ [⟨sym, len, []⟩])) := by
  simp only [exec, execTRow, if_neg hlen, if_neg hroom]

/-- T_CODE where the last row has room for the bits (R172). -/
theorem exec_tCode_fits {n : Byte} {s : State} {front : List Row} {r : Row} (htbl : s.tbl = front ++ [r])
    (hfit : r.code.length + n.toNat ≤ r.len.toNat) :
    exec (.tCode n) s = .next (s.withTbl (front ++ [{ r with code := r.code ++ s.argChunk n }])) := by
  have hnot : ¬ r.fill + count n > r.len.toNat := Nat.not_lt.2 hfit
  simp only [exec, execTCode, htbl, List.getLast?_concat, List.dropLast_concat, if_neg hnot]

/-- The state `s` with one more row, of symbol `sym` and length `len` with code bits `d`, and `a` in ARG. -/
def State.rowLoaded (s : State) (sym len : Byte) (d : Bits) (a : Word) : State :=
  (s.withTbl (s.tbl ++ [⟨sym, len, d⟩])).withArg a

theorem tCode_takesChunks {s : State} (sym len : Byte) (hrst : s.rstN = true) (herr : s.err = 0) :
    TakesChunks .tCode len.toNat (s.rowLoaded sym len) where
  released _ _ := hrst
  noError _ _ := herr
  legal n hn := decide_eq_true hn
  takes d c a hlen hfit := by
    have hfit' : d.length + (chunkCount c).toNat ≤ len.toNat := by rwa [toNat_chunkCount hlen]
    have hexec := exec_tCode_fits (s := (s.rowLoaded sym len d a).withArg (chunkWord c)) (r := ⟨sym, len, d⟩) rfl hfit'
    rw [argChunk_chunk _ hlen] at hexec
    exact hexec

/-- Settles O50: T_ROW makes the row and T_CODE takes its code chunk by chunk. -/
theorem tLoadLoadsTheWholeCode : Obligations.TLoadLoadsTheWholeCode := by
  intro sym b s hrst herr hroom hpos hle
  have hlen : (BitVec.ofNat 8 b.length).toNat = b.length := by
    rw [BitVec.toNat_ofNat, Nat.mod_eq_of_lt (by omega)]
  have hne : BitVec.ofNat 8 b.length ≠ 0 := by
    intro h0
    rw [h0, BitVec.ofNat_eq_ofNat, BitVec.toNat_zero] at hlen
    omega
  have hrow := runEvents_line hrst herr rfl (exec_tRow_room (sym := sym) hne (Nat.ne_of_lt hroom)) (chunkLines .tCode b)
  obtain ⟨a, hrun⟩ :=
    (tCode_takesChunks sym (BitVec.ofNat 8 b.length) hrst herr).runEvents_chunkLines s.arg hlen.ge
  exact ⟨s.rowLoaded sym (BitVec.ofNat 8 b.length) b a, hrow.trans hrun, rfl⟩

end Sys2Proof.Machine
end

section
/-! PROOFS of the writer family (40_bitstream_writer.md R130 to R135): what the decoder makes of every command's word, an
append said bit by bit, and the packed length and bytes. -/

namespace Sys2Proof.Machine

open Sys2Proof.Claims

/-! ## The word of any command -/

/-- Every command is built by a row of the opcode map from its own operands (R95). -/
theorem exists_row_build (i : Instr) : ∃ r ∈ opcodeMap, r.build i.nOperand i.sOperand = i := by
  cases i <;> simp [opcodeMap, controlTableRows, writerRows, readerRows, Instr.nOperand, Instr.sOperand]

/-- A row selects the words of the commands it builds. -/
theorem selects_encode_build {r : OpRow} (hr : r ∈ opcodeMap) (n s : Byte) : r.selects (encode (r.build n s)) = true := by
  obtain ⟨hopcode, hn, hs, -⟩ := row_build n s r hr
  rw [selects_iff hr, opField_encode, nField_encode, sField_encode, rsvField_encode, hopcode, hn, hs]
  exact ⟨rfl, or_iff_not_imp_left.2 (if_neg ·), or_iff_not_imp_left.2 (if_neg ·), rfl⟩

/-- The decoder on the word of any command: the command where it is legal, and otherwise its count is too large (R96). -/
theorem decode_encode_eq (i : Instr) : decode (encode i) = if i.wf then .ok i else .error .countTooLarge := by
  obtain ⟨r, hr, hbuild⟩ := exists_row_build i
  have hsel : r.selects (encode i) = true := by
    simpa only [hbuild] using selects_encode_build hr i.nOperand i.sOperand
  simp only [decode, find?_selects hr hsel, nField_encode, sField_encode, hbuild]

/-! ## Appends -/

/-- Appending the low n bits of a value puts exactly these bits behind the stream (R64). -/
theorem appends_of_exec_eq_appendBits {i : Instr} {s : State} {w n : Nat} {v : BitVec w}
    (h : exec i s = .next (s.appendBits (bitsOf n v))) : Appends i s n fun j => v.getLsbD j := by
  refine ⟨_, h, ?_, fun k hk => outBit_appendBits_lt s _ hk, fun j hj => ?_, rfl⟩
  · rw [wbits_appendBits, length_bitsOf]
  · rw [outBit_appendBits_ge, getD_bitsOf, decide_eq_true hj, Bool.true_and]

/-- W_BITS where the bits fit, bit by bit (R131). -/
theorem appends_wBits {n : Byte} {s : State} (h : s.wbits + n.toNat ≤ s.cfg.outCapBits) :
    Appends (.wBits n) s n.toNat fun j => s.arg.getLsbD j :=
  appends_of_exec_eq_appendBits (exec_wBits_fits h)

/-- Settles O30: the decoder checks N, and the append checks the room. -/
theorem wBitsAppendsTheChunk : Obligations.WBitsAppendsTheChunk := by
  refine ⟨fun n => ?_, fun n s _ => ⟨appends_wBits, fun hfull => ?_⟩⟩
  · exact (decode_encode_eq (.wBits n)).trans (by simp [Instr.wf, legalCount])
  · exact appendChecked_full (by simpa [State.argChunk, count] using hfull)

/-- ARG[7:0] bit by bit is the chunk of 8 bits of ARG. -/
theorem bitsOf_argByte (s : State) : bitsOf 8 s.argByte = s.argChunk 8 := by
  refine bits_ext (by simp [State.argChunk, count]) fun k hk => ?_
  rw [length_bitsOf] at hk
  rw [State.argChunk, getD_bitsOf, getD_bitsOf, State.argByte, BitVec.getLsbD_extractLsb']
  simp [count, hk]

/-- W_INT8 is W_BITS with N = 8 where the bits fit (R132). -/
theorem exec_wInt8_eq_wBits {s : State} (h : s.wbits + 8 ≤ s.cfg.outCapBits) :
    exec .wInt8 s = exec (.wBits 8) s := by
  rw [exec_wInt8_fits h, exec_wBits_fits h, bitsOf_argByte]

/-- W_INT32 is W_BITS with N = 32 where the bits fit (R133). -/
theorem exec_wInt32_eq_wBits {s : State} (h : s.wbits + 32 ≤ s.cfg.outCapBits) :
    exec .wInt32 s = exec (.wBits 32) s :=
  (exec_wInt32_fits h).trans (exec_wBits_fits (n := 32) h).symm

/-- Settles O31: where the bits fit the two are W_BITS with N = 8 and N = 32. -/
theorem wIntAppendsTheInteger : Obligations.WIntAppendsTheInteger := by
  refine ⟨decode_encode .wInt8 rfl, decode_encode .wInt32 rfl, fun s => ⟨fun h => ?_, fun hfull => ?_, fun h => ?_,
    fun hfull => ?_⟩⟩
  · have heq := exec_wInt8_eq_wBits h
    exact ⟨appends_of_exec_eq_appendBits (heq.trans (exec_wBits_fits (n := 8) h)), heq⟩
  · exact appendChecked_full (by simpa using hfull)
  · exact ⟨appends_of_exec_eq_appendBits (exec_wInt32_fits h), exec_wInt32_eq_wBits h⟩
  · exact appendChecked_full (by simpa [State.argWordBits] using hfull)

/-! ## Clearing the stream, its packed length and its packed bytes -/

/-- Settles O29: an empty stream reads 0 everywhere. -/
theorem wClrEmptiesTheWriter : Obligations.WClrEmptiesTheWriter :=
  ⟨decode_encode .wClr rfl,
    fun s => ⟨s.withObuf [], rfl, rfl, fun k => outBit_ge (s.withObuf []) (Nat.zero_le k), rfl⟩⟩

/-- Settles O33: W_LEN writes `ceil8` of WBITS to RES. -/
theorem wLenGivesThePackedLength : Obligations.WLenGivesThePackedLength :=
  ⟨decode_encode .wLen rfl, fun _ => rfl⟩

/-- W_GETB below the packed length (R135). -/
theorem exec_wGetb_inside {s : State} (h : s.argIndex < ceil8 s.wbits) :
    exec .wGetb s = .next (s.withRes ((s.outByte s.argIndex).setWidth 32)) := if_neg (Nat.not_le.2 h)

/-- W_GETB at or beyond the packed length (R135). -/
theorem exec_wGetb_outside {s : State} (h : s.argIndex ≥ ceil8 s.wbits) :
    exec .wGetb s = .next (s.raise .range Instr.wGetb.opcode) := if_pos h

/-- A packed byte in a register: its 8 bits of the stream and zeros above (R63, R135). -/
theorem getLsbD_setWidth_outByte (s : State) (i b : Nat) :
    ((s.outByte i).setWidth 32).getLsbD b = (decide (b < 8) && s.outBit (8 * i + b)) := by
  rw [BitVec.getLsbD_setWidth]
  by_cases hb : b < 8
  · rw [getLsbD_outByte s i b hb, decide_eq_true hb, decide_eq_true (by omega)]
  · rw [BitVec.getLsbD_of_ge _ _ (Nat.le_of_not_lt hb), decide_eq_false hb, Bool.and_false, Bool.false_and]

/-- Settles O34: the index is checked against the packed length, and RES takes the packed byte. -/
theorem wGetbReadsAPackedByte : Obligations.WGetbReadsAPackedByte :=
  ⟨decode_encode .wGetb rfl, fun s =>
    ⟨fun h => ⟨_, exec_wGetb_inside h, getLsbD_setWidth_outByte s s.argIndex, rfl⟩, exec_wGetb_outside⟩⟩

end Sys2Proof.Machine
end

section
/-! PROOFS of the reader family (41_bitstream_reader.md R150 to R155): a checked read said bit by bit, and the bits of a
stream that takes one more byte. -/

namespace Sys2Proof.Machine

open Sys2Proof.Claims

/-! ## Putting a byte -/

/-- R_PUTB with room for a byte (R151). -/
theorem exec_rPutb_room {s : State} (h : s.ilen ≠ s.cfg.inCapBytes) :
    exec .rPutb s = .next (s.withIbuf (s.ibuf ++ [s.argByte])) := if_neg h

/-- R_PUTB on a full IBUF (R151). -/
theorem exec_rPutb_full {s : State} (h : s.ilen = s.cfg.inCapBytes) :
    exec .rPutb s = .next (s.raise .overflow Instr.rPutb.opcode) := if_pos h

@[simp] theorem ilen_withIbuf_snoc (s : State) (b : Byte) : (s.withIbuf (s.ibuf ++ [b])).ilen = s.ilen + 1 := by
  simp [State.ilen]

/-- A byte at the end moves no bit of the stream. -/
theorem inBit_withIbuf_snoc_lt (s : State) (b : Byte) {k : Nat} (hk : k < 8 * s.ilen) :
    (s.withIbuf (s.ibuf ++ [b])).inBit k = s.inBit k := by
  have hbyte : k / 8 < s.ibuf.length := Nat.div_lt_of_lt_mul hk
  rw [State.inBit, State.withIbuf_ibuf, List.getD_append _ _ _ _ hbyte, State.inBit]

/-- The new bits of the stream are those of the byte put at its end (R66). -/
theorem inBit_withIbuf_snoc_ge (s : State) (b : Byte) {j : Nat} (hj : j < 8) :
    (s.withIbuf (s.ibuf ++ [b])).inBit (8 * s.ilen + j) = b.getLsbD j := by
  have hbyte : (8 * s.ilen + j) / 8 = s.ibuf.length := by simp only [State.ilen]; omega
  have hbit : (8 * s.ilen + j) % 8 = j := by omega
  rw [State.inBit, hbyte, hbit, State.withIbuf_ibuf, List.getD_append_right _ _ _ _ le_rfl, Nat.sub_self,
    List.getD_cons_zero]

/-- A byte at the end leaves 8 more bits to read, where RBITS is inside the stream (R67). -/
theorem inRem_withIbuf_snoc {s : State} (b : Byte) (h : s.rbits ≤ 8 * s.ilen) :
    (s.withIbuf (s.ibuf ++ [b])).inRem = s.inRem + 8 := by
  simp only [State.inRem, ilen_withIbuf_snoc, State.withIbuf_rbits]
  omega

/-- Settles O38: with room the byte goes to the end of the stream, and its bits are those of ARG[7:0]. -/
theorem rPutbAppendsAByte : Obligations.RPutbAppendsAByte := by
  refine ⟨decode_encode .rPutb rfl, fun s => ⟨fun hroom => ?_, exec_rPutb_full⟩⟩
  have hnew : ∀ j < 8, (s.withIbuf (s.ibuf ++ [s.argByte])).inBit (8 * s.ilen + j) = s.arg.getLsbD j := by
    intro j hj
    calc (s.withIbuf (s.ibuf ++ [s.argByte])).inBit (8 * s.ilen + j) = (wordByte s.arg 0).getLsbD j :=
          inBit_withIbuf_snoc_ge s s.argByte hj
      _ = s.arg.getLsbD j := by rw [getLsbD_wordByte s.arg 0 hj, Nat.mul_zero, Nat.zero_add]
  exact ⟨_, exec_rPutb_room hroom, ilen_withIbuf_snoc s s.argByte, fun k hk => inBit_withIbuf_snoc_lt s s.argByte hk,
    hnew, inRem_withIbuf_snoc s.argByte, rfl⟩

/-! ## Reading -/

/-- A checked read with enough bits left, bit by bit: RES takes up to 32 bits of the stream and zeros above (R67). -/
theorem reads_of_exec_eq_readChecked {i : Instr} {op : Byte} {s : State} {n adv : Nat} (hn : n ≤ 32)
    (hleft : n ≤ s.inRem) (h : exec i s = readChecked op n adv s) : Reads i s n adv := by
  refine ⟨_, h.trans (readChecked_enough hleft), fun j => ?_, rfl⟩
  have h32 : j < n → j < 32 := fun hj => Nat.lt_of_lt_of_le hj hn
  rw [State.withRbits_res, State.withRes_res, getLsbD_ofNat_ofBits, getD_inBits, ← Bool.and_assoc, ← Bool.decide_and]
  simp only [and_iff_right_of_imp h32]

/-- Settles O39: the decoder checks N, and the read checks the bits left. -/
theorem rPeekLooksAhead : Obligations.RPeekLooksAhead := by
  refine ⟨fun n => ?_, fun n s hn => ⟨fun hleft => ?_, fun hshort => readChecked_short hshort⟩⟩
  · exact (decode_encode_eq (.rPeek n)).trans (by simp [Instr.wf, legalCount])
  · exact reads_of_exec_eq_readChecked hn hleft rfl

/-- Settles O40: as R_PEEK, and RBITS moves on by N. -/
theorem rTakeConsumes : Obligations.RTakeConsumes := by
  refine ⟨fun n => ?_, fun n s hn => ⟨fun hleft => ?_, fun hshort => readChecked_short hshort⟩⟩
  · exact (decode_encode_eq (.rTake n)).trans (by simp [Instr.wf, legalCount])
  · exact reads_of_exec_eq_readChecked hn hleft rfl

/-- R_TAKE with enough bits left (R153). -/
theorem exec_rTake_enough {n : Byte} {s : State} (h : n.toNat ≤ s.inRem) :
    exec (.rTake n) s = .next (s.takeBits n.toNat) := readChecked_enough h

/-- R_INT8 is R_TAKE with N = 8 where enough bits are left (R154). -/
theorem exec_rInt8_eq_rTake {s : State} (h : 8 ≤ s.inRem) : exec .rInt8 s = exec (.rTake 8) s :=
  (exec_rInt8_enough h).trans (exec_rTake_enough (n := 8) h).symm

/-- R_INT32 is R_TAKE with N = 32 where enough bits are left (R155). -/
theorem exec_rInt32_eq_rTake {s : State} (h : 32 ≤ s.inRem) : exec .rInt32 s = exec (.rTake 32) s :=
  (exec_rInt32_enough h).trans (exec_rTake_enough (n := 32) h).symm

/-- Settles O41: the two are checked reads of 8 and 32 bits, and take what R_TAKE takes. -/
theorem rIntConsumesAnInteger : Obligations.RIntConsumesAnInteger := by
  refine ⟨decode_encode .rInt8 rfl, decode_encode .rInt32 rfl, fun s => ⟨fun h => ?_, fun hshort => ?_, fun h => ?_,
    fun hshort => ?_⟩⟩
  · exact ⟨reads_of_exec_eq_readChecked (by decide) h rfl, exec_rInt8_eq_rTake h⟩
  · exact readChecked_short hshort
  · exact ⟨reads_of_exec_eq_readChecked le_rfl h rfl, exec_rInt32_eq_rTake h⟩
  · exact readChecked_short hshort

/-! ## Clearing the stream -/

/-- Settles O37: R_CLR empties the stream and puts the read position at its start. -/
theorem rClrEmptiesTheReader : Obligations.RClrEmptiesTheReader :=
  ⟨decode_encode .rClr rfl, fun s => ⟨(s.withIbuf []).withRbits 0, rfl, rfl, rfl, rfl⟩⟩

end Sys2Proof.Machine
end

section
/-! PROOFS of the table family (42_table.md R170 to R175): the table commands row by row, where every field of the
serialized table lands in the writer's stream, and R_TABLE's reading of rows up to the first bad field. -/

namespace Sys2Proof.Machine

open Sys2Proof.Claims

/-! ## Loading the table -/

/-- Settles O43: an empty table has no incomplete row. -/
theorem tClrEmptiesTheTable : Obligations.TClrEmptiesTheTable :=
  ⟨decode_encode .tClr rfl, fun s => ⟨s.withTbl [], rfl, rfl, rfl, rfl⟩⟩

/-- T_ROW with length 0 (R171). -/
theorem exec_tRow_zero {sym len : Byte} {s : State} (hlen : len = 0) :
    exec (.tRow sym len) s = .next (s.raise .format (Instr.tRow sym len).opcode) := if_pos hlen

/-- T_ROW on a full table (R171). -/
theorem exec_tRow_full {sym len : Byte} {s : State} (hlen : len ≠ 0) (hfull : s.tbln = 256) :
    exec (.tRow sym len) s = .next (s.raise .overflow (Instr.tRow sym len).opcode) := by
  simp only [exec, execTRow, if_neg hlen, if_pos hfull]

/-- A table with an incomplete row is incomplete (R33). -/
theorem complete_eq_false {s : State} {r : Row} (hr : r ∈ s.tbl) (hne : r.code.length ≠ r.len.toNat) :
    s.complete = false :=
  Bool.eq_false_iff.2 fun hc => hne (complete_iff.1 hc r hr)

/-- Settles O44: the new row has no code bit and a length other than 0, so it is incomplete. -/
theorem tRowAppendsARow : Obligations.TRowAppendsARow := by
  refine ⟨fun sym len => decode_encode (.tRow sym len) rfl, fun sym len s =>
    ⟨exec_tRow_zero, exec_tRow_full, fun hlen hroom => ⟨exec_tRow_room hlen hroom, fun t ht => ?_⟩⟩⟩
  obtain rfl := Host.Outcome.next.inj ((exec_tRow_room hlen hroom).symm.trans ht)
  have hmem : (⟨sym, len, []⟩ : Row) ∈ s.tbl ++ [⟨sym, len, []⟩] := List.mem_concat_self
  exact complete_eq_false hmem fun h0 => hlen (BitVec.eq_of_toNat_eq h0.symm)

/-- T_CODE with no row (R172). -/
theorem exec_tCode_empty {n : Byte} {s : State} (h : s.tbl = []) :
    exec (.tCode n) s = .next (s.raise .range (Instr.tCode n).opcode) := by
  simp only [exec, execTCode, h, List.getLast?_nil]

/-- T_CODE where the bits would go past the last row's length (R172). -/
theorem exec_tCode_full {n : Byte} {s : State} {front : List Row} {r : Row} (htbl : s.tbl = front ++ [r])
    (hfull : r.code.length + n.toNat > r.len.toNat) :
    exec (.tCode n) s = .next (s.raise .overflow (Instr.tCode n).opcode) := by
  have hpos : r.fill + count n > r.len.toNat := hfull
  simp only [exec, execTCode, htbl, List.getLast?_concat, if_pos hpos]

/-- Settles O45: T_CODE looks at the last row only, and takes the chunk ARG[0] .. ARG[N−1]. -/
theorem tCodeFillsTheLastRow : Obligations.TCodeFillsTheLastRow := by
  refine ⟨fun n => ?_, fun n s _ => ⟨exec_tCode_empty, fun front r htbl => ⟨exec_tCode_full htbl, fun hfit => ?_⟩⟩⟩
  · exact (decode_encode_eq (.tCode n)).trans (by simp [Instr.wf, legalCount])
  · refine ⟨s.argChunk n, exec_tCode_fits htbl hfit, length_bitsOf _ _, fun j hj => ?_⟩
    rw [State.argChunk, getD_bitsOf, count, decide_eq_true hj, Bool.true_and]

/-! ## Reading a row's fields -/

/-- The three fields of a packed row do not overlap, so the packed word is their sum (R173). -/
theorem packed_eq_ofNat (r : Row) :
    r.packed = BitVec.ofNat 32 (r.sym.toNat + 2 ^ 8 * r.len.toNat + 2 ^ 16 * r.code.length) := by
  have hsym : r.sym.toNat < 2 ^ 8 := r.sym.isLt
  have hlen : r.len.toNat < 2 ^ 8 := r.len.isLt
  have hsum : r.sym.toNat + 2 ^ 8 * r.len.toNat + 2 ^ 16 * r.code.length =
      r.sym.toNat ||| r.len.toNat <<< 8 ||| r.code.length <<< 16 := by
    rw [Nat.lor_comm r.sym.toNat, Nat.lor_comm _ (r.code.length <<< 16), ← Nat.shiftLeft_add_eq_or_of_lt hsym,
      ← Nat.shiftLeft_add_eq_or_of_lt (by omega)]
    omega
  refine BitVec.eq_of_toNat_eq ?_
  rw [hsum]
  simp [Row.packed, Row.fill, Nat.shiftLeft_eq]

/-- T_RDROW on a row of the table (R173). -/
theorem exec_tRdrow_inside {s : State} {r : Row} (h : s.tbl[s.arg.toNat]? = some r) :
    exec .tRdrow s = .next (s.withRes r.packed) := by
  simp only [exec, execTRdrow, State.argIndex, h]

/-- T_RDROW at or beyond TBLN (R173). -/
theorem exec_tRdrow_outside {s : State} (h : s.arg.toNat ≥ s.tbl.length) :
    exec .tRdrow s = .next (s.raise .range Instr.tRdrow.opcode) := by
  simp only [exec, execTRdrow, State.argIndex, List.getElem?_eq_none h]

/-- Settles O46: the row ARG names is packed in RES. -/
theorem tRdrowReadsARow : Obligations.TRdrowReadsARow := by
  refine ⟨decode_encode .tRdrow rfl, fun s => ⟨exec_tRdrow_outside, fun r hr _ => ?_⟩⟩
  rw [exec_tRdrow_inside hr, packed_eq_ofNat]
  rfl

/-! ## The layout of a serialized table -/

@[simp] theorem rowStart_zero (t : List Row) : rowStart t 0 = 8 := rfl

/-- Every row stands behind the count byte (R103). -/
theorem eight_le_rowStart (t : List Row) (i : Nat) : 8 ≤ rowStart t i := Nat.le_add_right _ _

/-- The first row moves the rows after it by its own bits (R104). -/
theorem rowStart_cons_succ (r : Row) (t : List Row) (i : Nat) :
    rowStart (r :: t) (i + 1) = 16 + r.len.toNat + rowStart t i := by
  simp only [rowStart, List.take_succ_cons, List.map_cons, List.sum_cons]
  omega

theorem length_rowBits {r : Row} (h : r.code.length = r.len.toNat) : (rowBits r).length = 16 + r.len.toNat := by
  rw [rowBits, List.length_append, List.length_append, length_bitsOf, length_bitsOf, h]

theorem getD_rowBits_sym (r : Row) {j : Nat} (hj : j < 8) : (rowBits r).getD j false = r.sym.getLsbD j := by
  rw [rowBits, List.append_assoc, List.getD_append _ _ _ _ (by simpa using hj), getD_bitsOf, decide_eq_true hj,
    Bool.true_and]

theorem getD_rowBits_len (r : Row) {j : Nat} (hj : j < 8) : (rowBits r).getD (8 + j) false = r.len.getLsbD j := by
  rw [rowBits, List.append_assoc, List.getD_append_right _ _ _ _ (by simp), length_bitsOf, Nat.add_sub_cancel_left,
    List.getD_append _ _ _ _ (by simpa using hj), getD_bitsOf, decide_eq_true hj, Bool.true_and]

theorem getD_rowBits_code (r : Row) (j : Nat) : (rowBits r).getD (16 + j) false = r.code.getD j false := by
  have hlen : (bitsOf 8 r.sym ++ bitsOf 8 r.len).length = 16 := by simp
  rw [rowBits, List.getD_append_right _ _ _ _ (by omega), hlen, Nat.add_sub_cancel_left]

section
variable {t : List Row} (ht : ∀ r ∈ t, r.code.length = r.len.toNat)
include ht

/-- Row `i` starts behind the count byte and the `i` rows before it (R104). -/
theorem length_rowsBefore (i : Nat) : 8 + ((t.take i).flatMap rowBits).length = rowStart t i := by
  have hlen : ∀ r ∈ t.take i, (rowBits r).length = 16 + r.len.toNat := fun r hr =>
    length_rowBits (ht r (List.mem_of_mem_take hr))
  rw [List.length_flatMap, List.map_congr_left hlen, rowStart]

/-- A serialized table ends where a row after its last would start. -/
theorem length_tableBits : (tableBits t).length = rowStart t t.length := by
  rw [tableBits, List.length_append, length_bitsOf, ← length_rowsBefore ht, List.take_length]

/-- Each row's bits stand at its `rowStart`. -/
theorem getD_tableBits_row {i : Nat} {r : Row} (hr : t[i]? = some r) {k : Nat} (hk : k < 16 + r.len.toNat) :
    (tableBits t).getD (rowStart t i + k) false = (rowBits r).getD k false := by
  obtain ⟨hi, hget⟩ := List.getElem?_eq_some_iff.1 hr
  have hrow : k < (rowBits r).length := by rwa [length_rowBits (ht r (List.mem_of_getElem? hr))]
  have hsplit : t.flatMap rowBits = (t.take i).flatMap rowBits ++ (rowBits r ++ (t.drop (i + 1)).flatMap rowBits) := by
    rw [← List.flatMap_cons, ← List.flatMap_append, ← hget, ← List.drop_eq_getElem_cons hi, List.take_append_drop]
  have hstart : (bitsOf 8 (BitVec.ofNat 8 (t.length - 1)) ++ (t.take i).flatMap rowBits).length = rowStart t i := by
    rw [List.length_append, length_bitsOf, length_rowsBefore ht]
  rw [tableBits, hsplit, ← List.append_assoc, ← hstart, List.getD_append_right _ _ _ _ (Nat.le_add_right _ _),
    Nat.add_sub_cancel_left, List.getD_append _ _ _ _ hrow]

end

/-- The first byte is the number of rows less 1 (R103). -/
theorem getD_tableBits_count {t : List Row} {j : Nat} (hj : j < 8) :
    (tableBits t).getD j false = (t.length - 1).testBit j := by
  rw [tableBits, List.getD_append _ _ _ _ (by rwa [length_bitsOf]), getD_bitsOf, BitVec.getLsbD_ofNat,
    decide_eq_true hj, Bool.true_and, Bool.true_and]

/-! ## Writing the table -/

/-- W_TABLE with no row (R174). -/
theorem exec_wTable_empty {s : State} (h : s.tbl = []) : exec .wTable s = .next (s.raise .empty Instr.wTable.opcode) :=
  if_pos h

/-- W_TABLE with an incomplete row (R174). -/
theorem exec_wTable_incomplete {s : State} (hne : s.tbl ≠ []) (h : s.complete = false) :
    exec .wTable s = .next (s.raise .incomplete Instr.wTable.opcode) := by
  simp [exec, execWTable, hne, h]

/-- W_TABLE with a complete table is a checked append (R174). -/
theorem exec_wTable_complete {s : State} (hne : s.tbl ≠ []) (h : s.complete = true) :
    exec .wTable s = appendChecked Instr.wTable.opcode (tableBits s.tbl) s := by
  simp [exec, execWTable, hne, h]

/-- Settles O47: a complete table is appended whole, and each field of the serialized table has its place. -/
theorem wTableLaysOutTheTable : Obligations.WTableLaysOutTheTable := by
  refine ⟨decode_encode .wTable rfl, fun s _ => ⟨exec_wTable_empty, ?_, fun hne hcomplete => ?_⟩⟩
  · rintro hne ⟨r, hr, hrow⟩
    exact exec_wTable_incomplete hne (complete_eq_false hr hrow)
  have hexec := exec_wTable_complete hne (complete_iff.2 hcomplete)
  have hlen := length_tableBits hcomplete
  refine ⟨fun hfull => hexec.trans (appendChecked_full (by rwa [hlen])), fun hfits => ?_⟩
  refine ⟨_, hexec.trans (appendChecked_fits (by rwa [hlen])), rfl, ?_, fun k hk => outBit_appendBits_lt s _ hk,
    fun j hj => ?_, fun i r hr => ?_⟩
  · rw [wbits_appendBits, hlen]
  · rw [outBit_appendBits_ge, getD_tableBits_count hj]
  have hbit : ∀ k < 16 + r.len.toNat,
      (s.appendBits (tableBits s.tbl)).outBit (s.wbits + rowStart s.tbl i + k) = (rowBits r).getD k false := by
    intro k hk
    rw [Nat.add_assoc, outBit_appendBits_ge, getD_tableBits_row hcomplete hr hk]
  refine ⟨fun j hj => ?_, fun j hj => ?_, fun j hj => ?_⟩
  · rw [hbit j (by omega), getD_rowBits_sym r hj]
  · rw [Nat.add_assoc _ 8, hbit (8 + j) (by omega), getD_rowBits_len r hj]
  · rw [Nat.add_assoc _ 16, hbit (16 + j) (by omega), getD_rowBits_code]

/-! ## Reading one row -/

/-- A field that ends beyond the stream (R175). -/
theorem getField_short {s : State} {p k : Nat} (h : p + k > 8 * s.ilen) : s.getField p k = none := if_pos h

/-- A field inside the stream (R175). -/
theorem getField_inside {s : State} {p k : Nat} (h : p + k ≤ 8 * s.ilen) :
    s.getField p k = some (ofBits (s.inBits p k)) := if_neg (Nat.not_lt.2 h)

/-- A field of the stream is known by its bits. -/
theorem ofBits_inBits_eq_toNat {w : Nat} {s : State} {p : Nat} {v : BitVec w}
    (h : ∀ j < w, s.inBit (p + j) = v.getLsbD j) : ofBits (s.inBits p w) = v.toNat := by
  have hbits := inBits_eq s p (bitsOf w v) fun j hj => by
    rw [length_bitsOf] at hj
    rw [h j hj, getD_bitsOf, decide_eq_true hj, Bool.true_and]
  rw [length_bitsOf] at hbits
  rw [hbits, ofBits_bitsOf]

/-- A row whose symbol or length is not wholly in the stream (R175). -/
theorem readRow_short {s : State} {p : Nat} (h : p + 16 > 8 * s.ilen) : s.readRow p = .error .underflow := by
  have hlen : s.getField (p + 8) 8 = none := getField_short h
  rw [State.readRow, hlen]
  cases s.getField p 8 <;> rfl

/-- A row whose symbol and length are in the stream: the length decides (R175). -/
theorem readRow_eq {s : State} {p : Nat} {len : Byte} (h : p + 16 ≤ 8 * s.ilen)
    (hlen : ∀ j < 8, s.inBit (p + 8 + j) = len.getLsbD j) :
    s.readRow p =
      if len = 0 then .error .format
      else if p + 16 + len.toNat > 8 * s.ilen then .error .underflow
      else .ok (⟨BitVec.ofNat 8 (ofBits (s.inBits p 8)), len, s.inBits (p + 16) len.toNat⟩, p + 16 + len.toNat) := by
  have hzero : len.toNat = 0 ↔ len = 0 := BitVec.toNat_inj (y := 0)
  simp only [State.readRow, getField_inside (show p + 8 ≤ 8 * s.ilen by omega),
    getField_inside (show p + 8 + 8 ≤ 8 * s.ilen by omega), ofBits_inBits_eq_toNat hlen, hzero, BitVec.ofNat_toNat,
    BitVec.setWidth_eq]

/-- A whole row in the stream is read as it stands there (R175). -/
theorem readRow_good {s : State} {p : Nat} {r : Row} (hlen : r.len ≠ 0) (hcode : r.code.length = r.len.toNat)
    (hin : p + 16 + r.len.toNat ≤ 8 * s.ilen) (hrow : RowAt s p r) :
    s.readRow p = .ok (r, p + 16 + r.len.toNat) := by
  obtain ⟨hsymBits, hlenBits, hcodeBits⟩ := hrow
  have hsym : BitVec.ofNat 8 (ofBits (s.inBits p 8)) = r.sym := by
    rw [ofBits_inBits_eq_toNat hsymBits, BitVec.ofNat_toNat, BitVec.setWidth_eq]
  have hcode' : s.inBits (p + 16) r.len.toNat = r.code := by
    rw [← hcode] at hcodeBits ⊢
    exact inBits_eq s (p + 16) r.code hcodeBits
  rw [readRow_eq (by omega) hlenBits, if_neg hlen, if_neg (by omega), hsym, hcode']

/-! ## Reading the rows in turn -/

/-- Reading stops at the first row that cannot be read (R175). -/
theorem readRows_succ_error {s : State} {p : Nat} {e : HcbError} (h : s.readRow p = .error e) (k : Nat) :
    s.readRows (k + 1) p = .error e := by rw [State.readRows, h]

/-- Behind a row that can be read, reading goes on (R175). -/
theorem readRows_succ_ok {s : State} {p q : Nat} {r : Row} (h : s.readRow p = .ok (r, q)) (k : Nat) :
    s.readRows (k + 1) p = (s.readRows k q).map (Prod.map (r :: ·) id) := by
  simp only [State.readRows, h]
  cases s.readRows k q <;> rfl

/-- By induction on the rows, whole rows in the stream are read as they stand there, and reading goes on behind them. The
table they belong to starts at `b`, and its rows 8 bits later. -/
theorem readRows_good {s : State} {good : List Row} (hgood : ∀ r ∈ good, r.len ≠ 0 ∧ r.code.length = r.len.toNat)
    (k : Nat) {b : Nat} (hin : b + rowStart good good.length ≤ 8 * s.ilen)
    (hrows : ∀ i r, good[i]? = some r → RowAt s (b + rowStart good i) r) :
    s.readRows (good.length + k) (b + 8) =
      (s.readRows k (b + rowStart good good.length)).map (Prod.map (good ++ ·) id) := by
  induction good generalizing b with
  | nil =>
    rw [List.length_nil, Nat.zero_add, rowStart_zero]
    cases s.readRows k (b + 8) <;> rfl
  | cons r good ih =>
    obtain ⟨⟨hlen, hcode⟩, hgood'⟩ := List.forall_mem_cons.1 hgood
    have hstart : ∀ i, b + rowStart (r :: good) (i + 1) = b + 16 + r.len.toNat + rowStart good i := fun i => by
      rw [rowStart_cons_succ]
      omega
    have hend : b + 8 + 16 + r.len.toNat = b + 16 + r.len.toNat + 8 := by omega
    have hfirst : s.readRow (b + 8) = .ok (r, b + 16 + r.len.toNat + 8) := by
      have h8 := eight_le_rowStart good good.length
      rw [List.length_cons, hstart] at hin
      rw [← hend]
      exact readRow_good hlen hcode (by omega) (hrows 0 r rfl)
    have hrest := ih hgood' (by rw [← hstart]; exact hin) fun i x hx => by
      rw [← hstart]
      exact hrows (i + 1) x hx
    rw [List.length_cons, Nat.add_right_comm, readRows_succ_ok hfirst, hrest, hstart]
    cases s.readRows k (b + 16 + r.len.toNat + rowStart good good.length) <;> rfl

/-- R_TABLE's table behind a count byte of `c` (R175). -/
theorem readTable_count {s : State} {p c : Nat} (hc : c < 256) (hin : p + 8 ≤ 8 * s.ilen)
    (hcount : ∀ j < 8, s.inBit (p + j) = c.testBit j) : s.readTable p = s.readRows (c + 1) (p + 8) := by
  have hbyte : ofBits (s.inBits p 8) = c := by
    have hval : ofBits (s.inBits p 8) = (BitVec.ofNat 8 c).toNat := ofBits_inBits_eq_toNat fun j hj => by
      rw [hcount j hj, BitVec.getLsbD_ofNat, decide_eq_true hj, Bool.true_and]
    rw [hval, BitVec.toNat_ofNat, Nat.mod_eq_of_lt hc]
  simp only [State.readTable, getField_inside hin, hbyte]

/-- R_TABLE where the table cannot be read (R175). -/
theorem exec_rTable_error {s : State} {e : HcbError} (h : s.readTable s.rbits = .error e) :
    exec .rTable s = .next (s.raise e Instr.rTable.opcode) := by simp only [exec, execRTable, h]

/-- R_TABLE where the table can be read (R175). -/
theorem exec_rTable_ok {s : State} {rows : List Row} {p : Nat} (h : s.readTable s.rbits = .ok (rows, p)) :
    exec .rTable s = .next (((s.withTbl rows).withRbits p).withRes (BitVec.ofNat 32 rows.length)) := by
  simp only [exec, execRTable, h]

/-- Settles O48: all rows are good, so reading ends behind the last with exactly these rows. -/
theorem rTableReadsBackEveryTable : Obligations.RTableReadsBackEveryTable := by
  refine ⟨decode_encode .rTable rfl, fun s rows hpos hle hrows hin hcount hat => ?_⟩
  have h8 := eight_le_rowStart rows rows.length
  have hlast : rows.length - 1 + 1 = rows.length + 0 := Nat.sub_add_cancel hpos
  have hread : s.readTable s.rbits = .ok (rows, s.rbits + rowStart rows rows.length) := by
    rw [readTable_count (by omega) (by omega) hcount, hlast, readRows_good hrows 0 hin hat]
    simp [State.readRows, Except.map]
  exact exec_rTable_ok hread

/-- Settles O49: reading passes the good rows and stops at the row behind them, with the error its fields give. -/
theorem rTableFailsAtTheFirstBadField : Obligations.RTableFailsAtTheFirstBadField := by
  refine fun s => ⟨fun h => exec_rTable_error ?_, fun c good hc hle hin hgood hcount hat => ?_⟩
  · simp only [State.readTable, getField_short h]
  have hbad : ∀ e, s.readRow (s.rbits + rowStart good good.length) = .error e → Fails .rTable s e := by
    intro e he
    have h8 := eight_le_rowStart good good.length
    have hmore : c + 1 = good.length + ((c - good.length) + 1) := by omega
    refine exec_rTable_error ?_
    rw [readTable_count hc (by omega) hcount, hmore, readRows_good hgood _ hin hat, readRows_succ_error he]
    rfl
  refine ⟨fun hshort => hbad _ (readRow_short hshort), fun h16 len hlen =>
    ⟨fun h0 => hbad _ ?_, fun h0 hcut => hbad _ ?_⟩⟩
  · rw [readRow_eq h16 hlen, if_pos h0]
  · rw [readRow_eq h16 hlen, if_neg h0, if_pos hcut]

end Sys2Proof.Machine
end

section
/-! PROOFS of the encode family (43_encode.md R190, R191): W_SYM by its four outcomes, R_SYM's scan of the table row by row,
and the payload round trip, which goes through the list of rows whose codes W_SYM appended. -/

namespace Sys2Proof.Machine

open Sys2Proof.Claims

/-! ## W_SYM -/

/-- Without a row before it that carries the symbol, a row with the symbol is the one looked up (R191). -/
theorem rowOf_eq_first {s : State} {front back : List Row} {r : Row} (htbl : s.tbl = front ++ r :: back)
    (hfront : ∀ q ∈ front, q.sym ≠ r.sym) : s.rowOf r.sym = some r := by
  refine List.find?_eq_some_iff_append.2 ⟨beq_self_eq_true _, front, back, htbl, fun q hq => ?_⟩
  rw [Bool.not_eq_true', beq_eq_false_iff_ne]
  exact hfront q hq

/-- The row looked up is a row of the table that carries the symbol (R191). -/
theorem mem_and_sym_of_rowOf {s : State} {sym : Byte} {r : Row} (h : s.rowOf sym = some r) : r ∈ s.tbl ∧ r.sym = sym := by
  rw [State.rowOf] at h
  exact ⟨List.mem_of_find?_eq_some h, by simpa using List.find?_some h⟩

/-- W_SYM with an incomplete row (R190). -/
theorem exec_wSym_incomplete {sym : Byte} {s : State} (h : s.complete = false) :
    exec (.wSym sym) s = .next (s.raise .incomplete (Instr.wSym sym).opcode) := by
  simp [exec, execWSym, h]

/-- W_SYM on a complete table where no row has the symbol (R190). -/
theorem exec_wSym_unknown {sym : Byte} {s : State} (hc : s.complete = true) (h : s.rowOf sym = none) :
    exec (.wSym sym) s = .next (s.raise .lookupEnc (Instr.wSym sym).opcode) := by
  simp [exec, execWSym, hc, h]

/-- W_SYM on a complete table is a checked append of the looked-up row's code (R190). -/
theorem exec_wSym_row {sym : Byte} {s : State} {r : Row} (hc : s.complete = true) (h : s.rowOf sym = some r) :
    exec (.wSym sym) s = appendChecked (Instr.wSym sym).opcode r.code s := by
  simp [exec, execWSym, hc, h]

/-- Appending a bit sequence puts exactly its bits behind the stream (R64). -/
theorem appends_of_exec_eq_appendBits_seq {i : Instr} {s : State} {c : Bits} (h : exec i s = .next (s.appendBits c)) :
    Appends i s c.length fun j => c.getD j false :=
  ⟨_, h, wbits_appendBits s c, fun _ hk => outBit_appendBits_lt s c hk, fun j _ => outBit_appendBits_ge s c j, rfl⟩

/-- Settles O51: the table is checked first, then the lookup, then the room for the first row's code. -/
theorem wSymAppendsTheFirstRowsCode : Obligations.WSymAppendsTheFirstRowsCode := by
  refine ⟨fun sym => decode_encode (.wSym sym) rfl, fun sym s => ⟨?_, fun hcomplete => ⟨fun hnone => ?_, ?_⟩⟩⟩
  · rintro ⟨r, hr, hrow⟩
    exact exec_wSym_incomplete (complete_eq_false hr hrow)
  · exact exec_wSym_unknown (complete_iff.2 hcomplete) (List.find?_eq_none.2 fun r hr => by simpa using hnone r hr)
  · rintro front back r htbl hfront rfl
    have hexec := exec_wSym_row (complete_iff.2 hcomplete) (rowOf_eq_first htbl hfront)
    have hlen : r.code.length = r.len.toNat := hcomplete r (by simp [htbl])
    rw [← hlen]
    exact ⟨fun hfull => hexec.trans (appendChecked_full hfull),
      fun hfits => appends_of_exec_eq_appendBits_seq (hexec.trans (appendChecked_fits hfits))⟩

/-! ## The symbols of a payload -/

/-- No error of R251 has the code of "no error". -/
theorem code_ne_zero (e : HcbError) : e.code ≠ 0 := by cases e <;> decide

/-- A W_SYM on a complete table that ends without an error appended the code of a row with the symbol (R190). -/
theorem exec_wSym_ok {sym : Byte} {s t : State} (hc : s.complete = true) (h : exec (.wSym sym) s = .next t)
    (herr : t.err = 0) : ∃ r ∈ s.tbl, r.sym = sym ∧ t = s.appendBits r.code := by
  cases hrow : s.rowOf sym with
  | none =>
    obtain rfl := Host.Outcome.next.inj ((exec_wSym_unknown hc hrow).symm.trans h)
    exact absurd herr (code_ne_zero .lookupEnc)
  | some r =>
    obtain ⟨hmem, hsym⟩ := mem_and_sym_of_rowOf hrow
    rcases appendChecked_cases ((exec_wSym_row hc hrow).symm.trans h) with ⟨-, rfl⟩ | ⟨-, rfl⟩
    · exact absurd herr (code_ne_zero .overflow)
    · exact ⟨r, hmem, hsym, rfl⟩

/-- Encoding symbols that succeeds goes on from the first symbol's state, which has no error. -/
theorem encodeAll_cons {sym : Byte} {syms : List Byte} {s u : State} (h : encodeAll (sym :: syms) s = some u) :
    ∃ t, exec (.wSym sym) s = .next t ∧ t.err = 0 ∧ encodeAll syms t = some u := by
  rw [encodeAll] at h
  split at h
  · split_ifs at h with herr
    exact ⟨_, ‹_›, herr, h⟩
  · cases h

theorem appendBits_nil (s : State) : s.appendBits [] = s := by
  rw [State.appendBits, List.append_nil]
  rfl

theorem appendBits_appendBits (s : State) (b c : Bits) : (s.appendBits b).appendBits c = s.appendBits (b ++ c) := by
  rw [State.appendBits, State.appendBits_obuf, List.append_assoc]
  rfl

/-- By induction on the symbols, encoding them on a complete table appends the codes of rows of the table that carry
them, one row for each symbol (R105, R190). -/
theorem encodeAll_rows {syms : List Byte} {s u : State} (hc : s.complete = true) (h : encodeAll syms s = some u) :
    ∃ rows, rows ⊆ s.tbl ∧ rows.map Row.sym = syms ∧ u = s.appendBits (rows.flatMap Row.code) := by
  induction syms generalizing s with
  | nil =>
    obtain rfl : s = u := Option.some.inj h
    exact ⟨[], List.nil_subset _, rfl, (appendBits_nil s).symm⟩
  | cons sym syms ih =>
    obtain ⟨t, hexec, herr, hrest⟩ := encodeAll_cons h
    obtain ⟨r, hr, rfl, rfl⟩ := exec_wSym_ok hc hexec herr
    obtain ⟨rows, hrows, rfl, rfl⟩ := ih (s := s.appendBits r.code) hc hrest
    exact ⟨r :: rows, List.cons_subset.2 ⟨hr, hrows⟩, rfl, appendBits_appendBits s r.code _⟩

/-! ## R_SYM's scan -/

/-- A whole row matches where the next bits, as many as its length, are its code (R200). -/
theorem matches_iff_inBits {s : State} {r : Row} (hcode : r.code.length = r.len.toNat) :
    Matches s r ↔ r.len.toNat ≤ s.inRem ∧ s.inBits s.rbits r.len.toNat = r.code := by
  rw [Matches, ← hcode]
  refine and_congr_right fun _ => ⟨inBits_eq s s.rbits r.code, fun heq j hj => ?_⟩
  rw [← heq, getD_inBits, decide_eq_true hj, Bool.true_and]

/-- The scan ends at a row that matches (R200). -/
theorem scan_cons_of_matches {s : State} {r : Row} (hcode : r.code.length = r.len.toNat) (hr : Matches s r)
    (rows : List Row) (short : Bool) : s.scan (r :: rows) short = .ok r := by
  obtain ⟨hleft, hbits⟩ := (matches_iff_inBits hcode).1 hr
  rw [State.scan, if_neg (Nat.not_lt.2 hleft), if_pos hbits]

/-- The scan passes a row that does not match, and notes whether it was longer than the bits left (R200). -/
theorem scan_cons_of_not_matches {s : State} {r : Row} (hcode : r.code.length = r.len.toNat) (hr : ¬ Matches s r)
    (rows : List Row) (short : Bool) :
    s.scan (r :: rows) short = s.scan rows (short || decide (r.len.toNat > s.inRem)) := by
  rw [State.scan]
  by_cases hlong : r.len.toNat > s.inRem
  · rw [if_pos hlong, decide_eq_true hlong, Bool.or_true]
  · have hbits : s.inBits s.rbits r.len.toNat ≠ r.code := fun heq =>
      hr ((matches_iff_inBits hcode).2 ⟨Nat.le_of_not_lt hlong, heq⟩)
    rw [if_neg hlong, if_neg hbits, decide_eq_false hlong, Bool.or_false]

/-- The scan finds the first row that matches (R200, R201). -/
theorem scan_eq_first_match {s : State} {front back : List Row} {r : Row}
    (hc : ∀ q ∈ front ++ r :: back, q.code.length = q.len.toNat) (hfront : ∀ q ∈ front, ¬ Matches s q)
    (hr : Matches s r) (short : Bool) : s.scan (front ++ r :: back) short = .ok r := by
  induction front generalizing short with
  | nil => exact scan_cons_of_matches (hc r List.mem_cons_self) hr back short
  | cons q front ih =>
    obtain ⟨hq, hc'⟩ := List.forall_mem_cons.1 hc
    obtain ⟨hqm, hfront'⟩ := List.forall_mem_cons.1 hfront
    rw [List.cons_append, scan_cons_of_not_matches hq hqm, ih hc' hfront']

/-- R_SYM's effect where it takes row `r`: RBITS moves on behind its code, and RES takes its symbol (R200). -/
def State.takeSym (r : Row) (s : State) : State := (s.withRbits (s.rbits + r.len.toNat)).withRes (r.sym.setWidth 32)

@[simp] theorem takeSym_res (s : State) (r : Row) : (s.takeSym r).res = r.sym.setWidth 32 := rfl
@[simp] theorem takeSym_err (s : State) (r : Row) : (s.takeSym r).err = s.err := rfl
@[simp] theorem takeSym_rbits (s : State) (r : Row) : (s.takeSym r).rbits = s.rbits + r.len.toNat := rfl
@[simp] theorem takeSym_tbl (s : State) (r : Row) : (s.takeSym r).tbl = s.tbl := rfl
@[simp] theorem takeSym_ilen (s : State) (r : Row) : (s.takeSym r).ilen = s.ilen := rfl
@[simp] theorem takeSym_inBits (s : State) (r : Row) (p n : Nat) : (s.takeSym r).inBits p n = s.inBits p n := rfl

/-- R_SYM on a complete table takes the first row that matches (R200, R201). -/
theorem exec_rSym_first_match {s : State} {front back : List Row} {r : Row}
    (hc : ∀ q ∈ s.tbl, q.code.length = q.len.toNat) (htbl : s.tbl = front ++ r :: back)
    (hfront : ∀ q ∈ front, ¬ Matches s q) (hr : Matches s r) : exec .rSym s = .next (s.takeSym r) := by
  have hscan : s.scan s.tbl false = .ok r := by
    rw [htbl] at hc ⊢
    exact scan_eq_first_match hc hfront hr false
  simp [exec, execRSym, complete_iff.2 hc, hscan, State.takeSym]

/-- The bits left begin with the code of a row that matches. -/
theorem code_prefix_of_matches {s : State} {r : Row} (hcode : r.code.length = r.len.toNat) (hr : Matches s r) :
    r.code <+: s.inBits s.rbits s.inRem := by
  obtain ⟨hleft, hbits⟩ := (matches_iff_inBits hcode).1 hr
  rw [← Nat.add_sub_of_le hleft, inBits_append, hbits]
  exact List.prefix_append _ _

/-- On a complete `PrefixFree` table R_SYM takes the row that matches, wherever it stands: if a row before it matched too,
the bits left would begin with both codes (R108, R202). -/
theorem exec_rSym_prefixFree {s : State} {r : Row} (hc : ∀ q ∈ s.tbl, q.code.length = q.len.toNat)
    (hfree : PrefixFree s.tbl) (hmem : r ∈ s.tbl) (hr : Matches s r) : exec .rSym s = .next (s.takeSym r) := by
  obtain ⟨front, back, htbl⟩ := List.append_of_mem hmem
  refine exec_rSym_first_match hc htbl (fun q hq hqm => ?_) hr
  have hqmem : q ∈ s.tbl := htbl ▸ List.mem_append_left _ hq
  have hpre := List.prefix_or_prefix_of_prefix (code_prefix_of_matches (hc q hqmem) hqm)
    (code_prefix_of_matches (hc r hmem) hr)
  rw [PrefixFree, htbl] at hfree
  obtain ⟨hqr, hrq⟩ := (List.pairwise_append.1 hfree).2.2 q hq r List.mem_cons_self
  exact hpre.elim hqr hrq

/-! ## The payload round trip -/

/-- By induction on the rows, R_SYM reads their symbols back from their codes one behind the other (R105, R202). -/
theorem decodeAll_rows {rows : List Row} {d : State} (herr : d.err = 0) (hc : ∀ q ∈ d.tbl, q.code.length = q.len.toNat)
    (hfree : PrefixFree d.tbl) (hrows : rows ⊆ d.tbl) (hin : d.rbits + (rows.flatMap Row.code).length ≤ 8 * d.ilen)
    (hbits : d.inBits d.rbits (rows.flatMap Row.code).length = rows.flatMap Row.code) :
    ∃ d', decodeAll rows.length d = some (rows.map fun r => r.sym.setWidth 32, d') ∧
      d'.rbits = d.rbits + (rows.flatMap Row.code).length := by
  induction rows generalizing d with
  | nil => exact ⟨d, rfl, rfl⟩
  | cons r rows ih =>
    obtain ⟨hr, hrows'⟩ := List.cons_subset.1 hrows
    have hcode := hc r hr
    rw [List.flatMap_cons, List.length_append, hcode] at hin hbits
    rw [inBits_append] at hbits
    obtain ⟨hfirst, hrest⟩ := List.append_inj hbits (by rw [length_inBits, hcode])
    have hmatch : Matches d r := (matches_iff_inBits hcode).2 ⟨by rw [State.inRem]; omega, hfirst⟩
    have hexec := exec_rSym_prefixFree hc hfree hr hmatch
    obtain ⟨d', hdec, hpos⟩ := ih (d := d.takeSym r) herr hc hfree hrows'
      (by rw [takeSym_rbits, takeSym_ilen]; omega) hrest
    refine ⟨d', ?_, ?_⟩
    · simp [decodeAll, hexec, herr, hdec]
    · rw [hpos, takeSym_rbits, List.flatMap_cons, List.length_append, hcode, Nat.add_assoc]

/-- Settles O55: the appended bits are the codes of rows that carry the symbols, and these rows' symbols are read back. -/
theorem decodingAnEncodedPayloadGivesTheSymbols : Obligations.DecodingAnEncodedPayloadGivesTheSymbols := by
  intro e e' d syms _ hd hc hfree henc htbl hin hbits
  obtain ⟨rows, hrows, rfl, rfl⟩ := encodeAll_rows (complete_iff.2 hc) henc
  rw [← htbl] at hc hfree hrows
  rw [wbits_appendBits, Nat.add_sub_cancel_left] at hin hbits ⊢
  have hpayload : d.inBits d.rbits (rows.flatMap Row.code).length = rows.flatMap Row.code :=
    inBits_eq d d.rbits _ fun k hk => by rw [hbits k hk, outBit_appendBits_ge]
  rw [List.length_map, List.map_map]
  exact decodeAll_rows hd hc hfree hrows hin hpayload

end Sys2Proof.Machine
end

section
/-! PROOFS of the decode family (44_decode.md R200 to R202): R_SYM by its outcomes, from the encode family's facts about the
scan. -/

namespace Sys2Proof.Machine

open Sys2Proof.Claims

/-- Settles O52: the scan of a complete table passes the front rows and ends at the row that matches. -/
theorem rSymTakesTheFirstMatch : Obligations.RSymTakesTheFirstMatch :=
  ⟨decode_encode .rSym rfl, fun _ _ _ _ => exec_rSym_first_match⟩

/-! ## R_SYM's failures -/

/-- By induction on the rows, the scan of complete rows of which none matches ends in E_UNDERFLOW if it noted one longer
than the bits left, and in E_LOOKUP_DEC otherwise (R200). -/
theorem scan_of_no_match {s : State} {rows : List Row} (hc : ∀ r ∈ rows, r.code.length = r.len.toNat)
    (hno : ∀ r ∈ rows, ¬ Matches s r) (short : Bool) :
    s.scan rows short =
      .error (if short || rows.any (fun r => decide (r.len.toNat > s.inRem)) then .underflow else .lookupDec) := by
  induction rows generalizing short with
  | nil => rw [State.scan, List.any_nil, Bool.or_false]
  | cons r rows ih =>
    obtain ⟨hcode, hc'⟩ := List.forall_mem_cons.1 hc
    obtain ⟨hr, hno'⟩ := List.forall_mem_cons.1 hno
    rw [scan_cons_of_not_matches hcode hr, ih hc' hno', List.any_cons, Bool.or_assoc]

/-- R_SYM with an incomplete row (R200). -/
theorem exec_rSym_incomplete {s : State} (h : s.complete = false) :
    exec .rSym s = .next (s.raise .incomplete Instr.rSym.opcode) := by
  simp [exec, execRSym, h]

/-- R_SYM on a complete table whose scan fails raises the scan's error (R200). -/
theorem exec_rSym_scan_error {s : State} {e : HcbError} (hc : s.complete = true) (h : s.scan s.tbl false = .error e) :
    exec .rSym s = .next (s.raise e Instr.rSym.opcode) := by
  simp [exec, execRSym, hc, h]

/-- Settles O53: the table is checked first, and a scan without a match fails by whether a row is longer than the bits
left. -/
theorem rSymFailsWithoutAMatch : Obligations.RSymFailsWithoutAMatch := by
  refine fun s => ⟨?_, fun hc hno => ?_⟩
  · rintro ⟨r, hr, hrow⟩
    exact exec_rSym_incomplete (complete_eq_false hr hrow)
  have hscan := scan_of_no_match hc hno false
  refine ⟨fun ⟨r, hr, hlong⟩ => exec_rSym_scan_error (complete_iff.2 hc) (hscan.trans ?_),
    fun hfit => exec_rSym_scan_error (complete_iff.2 hc) (hscan.trans ?_)⟩
  · have hany : s.tbl.any (fun q => decide (q.len.toNat > s.inRem)) = true :=
      List.any_eq_true.2 ⟨r, hr, decide_eq_true hlong⟩
    rw [hany, Bool.or_true, if_pos rfl]
  · have hany : s.tbl.any (fun q => decide (q.len.toNat > s.inRem)) = false :=
      List.any_eq_false.2 fun q hq => by simpa using hfit q hq
    rw [hany, Bool.or_false, if_neg Bool.false_ne_true]

/-! ## The order of a prefix-free table's rows -/

/-- `PrefixFree` does not depend on the order of the rows (R108). -/
theorem prefixFree_of_perm {t u : List Row} (h : t.Perm u) (hfree : PrefixFree u) : PrefixFree t :=
  (h.pairwise_iff And.symm).2 hfree

/-- Settles O54: a permuted table is complete and `PrefixFree` and has the row too, and the row matches the same bits. -/
theorem rSymOnAPrefixFreeTableIgnoresRowOrder : Obligations.RSymOnAPrefixFreeTableIgnoresRowOrder :=
  fun s _ hc hfree hmem hr => ⟨exec_rSym_prefixFree hc hfree hmem hr, fun tbl hperm =>
    exec_rSym_prefixFree (s := s.withTbl tbl) (fun q hq => hc q (hperm.subset hq)) (prefixFree_of_perm hperm hfree)
      (hperm.symm.subset hmem) hr⟩

end Sys2Proof.Machine
end

section
/-! PROOFS of the control family (45_control.md R210, R211): the exact words of NOP and SRESET, what the other words with
their OPs do, and that SRESET alone clears a recorded error. -/

namespace Sys2Proof.Machine

open Sys2Proof.Claims

/-! ## The exact words -/

/-- SRESET's word performs SRESET, blocked or not (R211, R255). -/
theorem dispatchWord_sresetWord (s : State) : dispatchWord sresetWord s = exec .sreset s := by
  by_cases hs : s.err = 0
  · exact dispatchWord_legal hs (decode_encode .sreset rfl)
  · rw [dispatchWord, if_neg hs, blockedWrite, if_pos rfl]

/-- NOP's word performs NOP, blocked or not (R210, R255). -/
theorem dispatchWord_nopWord (s : State) : dispatchWord nopWord s = exec .nop s := by
  by_cases hs : s.err = 0
  · exact dispatchWord_legal hs (decode_encode .nop rfl)
  · exact dispatchWord_blocked hs (by decide)

/-! ## Words with another bit set -/

/-- The only legal word of an OP that takes no operand is the bare OP (R94). -/
theorem eq_command_of_decodes {w : Word} (h : ∃ i, decode w = .ok i) (hn : opField w ∉ nOps) (hs : opField w ∉ sOps) :
    w = command (opField w) 0 0 := by
  obtain ⟨-, hrsv, hnf, hsf, -⟩ := (decodes_iff w).1 h
  calc w = rsvField w ++ sField w ++ nField w ++ opField w := (fields_append w).symm
    _ = command (opField w) 0 0 := by rw [hrsv, hnf.resolve_left hn, hsf.resolve_left hs]; rfl

/-- An illegal word raises E_ILLEGAL with its own OP, and is ignored while blocked (R253, R255). -/
theorem dispatchWord_illegal {w : Word} (h : ¬ ∃ i, decode w = .ok i) (s : State) :
    dispatchWord w s = .next (if s.err = 0 then s.raise .illegal (opField w) else s) := by
  obtain ⟨e, he⟩ := (rejected_iff_not_decodes w).2 h
  split_ifs with hs
  · rw [dispatchWord, if_pos hs, commandWrite, he]
  · refine dispatchWord_blocked hs fun hw => h ⟨.sreset, ?_⟩
    rw [hw]
    exact decode_encode .sreset rfl

/-- A word with an OP that takes no operand and any other bit set is illegal. -/
theorem dispatchWord_otherBitSet {w : Word} {op : Byte} (hop : opField w = op) (hn : op ∉ nOps) (hs : op ∉ sOps)
    (hne : w ≠ command op 0 0) (s : State) :
    dispatchWord w s = .next (if s.err = 0 then s.raise .illegal op else s) := by
  subst hop
  exact dispatchWord_illegal (fun h => hne (eq_command_of_decodes h hn hs)) s

/-! ## A recorded error -/

/-- A command other than SRESET keeps the recorded error or records another (R254, R259). -/
theorem exec_keeps_error {i : Instr} {s t : State} (h : exec i s = .next t) (hne : i ≠ .sreset) (hs : s.err ≠ 0) :
    t.err ≠ 0 := by
  rcases exec_did h with ⟨herr, -⟩ | ⟨hi, -⟩ | ⟨e, rfl, -⟩
  · rwa [herr]
  · exact absurd hi hne
  · exact code_ne_zero e

/-! ## NOP and SRESET -/

/-- Settles O3: NOP's word is the bare OP 0x00, the only legal word with that OP. -/
theorem nopChangesNothing : Obligations.NopChangesNothing :=
  ⟨decode_encode .nop rfl, fun s => ⟨rfl, dispatchWord_nopWord s, fun _ hop hne =>
    dispatchWord_otherBitSet hop (by decide) (by decide) hne s⟩⟩

/-- Settles O2: SRESET's word is the bare OP 0x01, the only legal word with that OP, and a recorded error outlives every
other command. -/
theorem sresetPutsEverythingToReset : Obligations.SresetPutsEverythingToReset :=
  ⟨decode_encode .sreset rfl, fun s => ⟨rfl, dispatchWord_sresetWord s, rfl, fun _ hop hne =>
    dispatchWord_otherBitSet hop (by decide) (by decide) hne s, fun _ _ => exec_keeps_error⟩⟩

end Sys2Proof.Machine
end

section
/-! PROOFS about the reference table builder (46_host_procedures.md R222 to R226): a tree's codes part
from each other and are no longer than its leaves allow, and merging keeps the leaves, which are the bytes that
occur. -/

namespace Sys2Proof.Machine

/-! ## The rows of a tree -/

/-- The symbols of a tree's leaves, left before right. -/
def HuffTree.syms : HuffTree → List Byte
  | .leaf s _ => [s]
  | .node l r _ => l.syms ++ r.syms

theorem HuffTree.length_syms_pos (t : HuffTree) : 0 < t.syms.length := by
  induction t with
  | leaf s n => exact Nat.one_pos
  | node l r n ihl ihr =>
    rw [syms, List.length_append]
    omega

theorem HuffTree.map_fst_rows (t : HuffTree) (path : Bits) : (t.rows path).map Prod.fst = t.syms := by
  induction t generalizing path with
  | leaf s n => rfl
  | node l r n ihl ihr => rw [rows, List.map_append, ihl, ihr, syms]

/-- The code of a leaf begins with the path to its tree. -/
theorem HuffTree.prefix_of_mem_rows {t : HuffTree} {path : Bits} {r : Byte × Bits} (h : r ∈ t.rows path) :
    path <+: r.2 := by
  induction t generalizing path with
  | leaf s n =>
    obtain rfl := List.mem_singleton.1 h
    exact List.prefix_rfl
  | node left right n ihl ihr =>
    rcases List.mem_append.1 h with h | h
    · exact (List.prefix_append path _).trans (ihl h)
    · exact (List.prefix_append path _).trans (ihr h)

/-- A leaf is less deep in a tree than the tree has leaves (R225). -/
theorem HuffTree.length_lt_of_mem_rows {t : HuffTree} {path : Bits} {r : Byte × Bits} (h : r ∈ t.rows path) :
    r.2.length < path.length + t.syms.length := by
  induction t generalizing path with
  | leaf s n =>
    obtain rfl := List.mem_singleton.1 h
    exact Nat.lt_succ_self _
  | node left right n ihl ihr =>
    have hl := left.length_syms_pos
    have hr := right.length_syms_pos
    rw [syms, List.length_append]
    rcases List.mem_append.1 h with h | h
    · have hlt := ihl h
      rw [List.length_append, List.length_singleton] at hlt
      omega
    · have hlt := ihr h
      rw [List.length_append, List.length_singleton] at hlt
      omega

/-- Of two sequences that part after a common path, neither begins with the other. -/
theorem not_prefix_of_branches {path c d : Bits} {x y : Bool} (hxy : x ≠ y) (hc : path ++ [x] <+: c)
    (hd : path ++ [y] <+: d) : ¬ c <+: d := by
  intro hcd
  have hpre : path ++ [x] <+: path ++ [y] := List.prefix_of_prefix_length_le (hc.trans hcd) hd (by simp)
  have heq : path ++ [x] = path ++ [y] := hpre.eq_of_length (by simp)
  exact hxy (by simpa using heq)

/-- No code of a tree begins with another: two leaves' paths part at a node (R225). -/
theorem HuffTree.rows_pairwise (t : HuffTree) (path : Bits) :
    (t.rows path).Pairwise fun p q => ¬ p.2 <+: q.2 ∧ ¬ q.2 <+: p.2 := by
  induction t generalizing path with
  | leaf s n => exact List.pairwise_singleton _ _
  | node left right n ihl ihr =>
    refine List.pairwise_append.2 ⟨ihl _, ihr _, fun p hp q hq => ?_⟩
    have hp' := prefix_of_mem_rows hp
    have hq' := prefix_of_mem_rows hq
    exact ⟨not_prefix_of_branches Bool.false_ne_true hp' hq', not_prefix_of_branches Bool.false_ne_true.symm hq' hp'⟩

/-! ## The table of a tree -/

/-- The table of the last tree left: a single leaf has the code "0" (R224). -/
def HuffTree.table : HuffTree → List (Byte × Bits)
  | .leaf s _ => [(s, [false])]
  | .node l r n => (HuffTree.node l r n).rows []

theorem HuffTree.map_fst_table (t : HuffTree) : t.table.map Prod.fst = t.syms := by
  cases t with
  | leaf s n => rfl
  | node l r n => exact map_fst_rows _ _

theorem HuffTree.table_pairwise (t : HuffTree) : t.table.Pairwise fun p q => ¬ p.2 <+: q.2 ∧ ¬ q.2 <+: p.2 := by
  cases t with
  | leaf s n => exact List.pairwise_singleton _ _
  | node l r n => exact rows_pairwise _ _

theorem HuffTree.code_pos_of_mem_table {t : HuffTree} {r : Byte × Bits} (h : r ∈ t.table) : 1 ≤ r.2.length := by
  cases t with
  | leaf s n =>
    obtain rfl := List.mem_singleton.1 h
    exact le_rfl
  | node left right n =>
    rcases List.mem_append.1 h with h | h <;> exact (prefix_of_mem_rows h).length_le

/-- A code is shorter than the number of rows, but for the code of a single row. -/
theorem HuffTree.code_le_of_mem_table {t : HuffTree} {r : Byte × Bits} (h : r ∈ t.table) :
    r.2.length ≤ max 1 (t.syms.length - 1) := by
  cases t with
  | leaf s n =>
    obtain rfl := List.mem_singleton.1 h
    exact le_rfl
  | node left right n =>
    have hlt := length_lt_of_mem_rows h
    rw [List.length_nil] at hlt
    omega

/-! ## Merging trees -/

/-- Taking the minimum out of a list with a tree in it leaves the others (R223). -/
theorem takeMin_cons (t : HuffTree) (ts : List HuffTree) :
    ∃ m rest, takeMin (t :: ts) = some (m, rest) ∧ (m :: rest).Perm (t :: ts) := by
  induction ts generalizing t with
  | nil => exact ⟨t, [], rfl, .refl _⟩
  | cons u us ih =>
    obtain ⟨m, rest, hmin, hperm⟩ := ih u
    by_cases hle : t.count ≤ m.count
    · exact ⟨t, u :: us, by rw [takeMin, hmin]; exact if_pos hle, .refl _⟩
    · exact ⟨m, t :: rest, by rw [takeMin, hmin]; exact if_neg hle, (List.Perm.swap t m rest).trans (hperm.cons t)⟩

/-- One round of merging leaves one tree less, with the same leaves (R223). -/
theorem mergeTrees_step (fuel : Nat) (t u : HuffTree) (ts : List HuffTree) :
    ∃ work, mergeTrees (fuel + 1) (t :: u :: ts) = mergeTrees fuel work ∧ work.length = ts.length + 1 ∧
      (work.flatMap HuffTree.syms).Perm ((t :: u :: ts).flatMap HuffTree.syms) := by
  obtain ⟨x, work₁, hx, hperm₁⟩ := takeMin_cons t (u :: ts)
  have hlen₁ : work₁.length = ts.length + 1 := by simpa using hperm₁.length_eq
  obtain ⟨v, vs, rfl⟩ := List.exists_cons_of_length_eq_add_one hlen₁
  obtain ⟨y, work₂, hy, hperm₂⟩ := takeMin_cons v vs
  have hlen₂ : work₂.length = ts.length := by simpa using hperm₂.length_eq.trans hlen₁
  refine ⟨work₂ ++ [.node x y (x.count + y.count)], by rw [mergeTrees, hx]; simp only [hy], by simp [hlen₂], ?_⟩
  have hperm : (x :: y :: work₂).Perm (t :: u :: ts) := (hperm₂.cons x).trans hperm₁
  refine List.Perm.trans ?_ (hperm.flatMap_right _)
  have hsyms : (HuffTree.node x y (x.count + y.count)).syms = x.syms ++ y.syms := rfl
  simpa [hsyms] using List.perm_append_comm (l₁ := work₂.flatMap HuffTree.syms) (l₂ := x.syms ++ y.syms)

/-- A single tree is left as it is. -/
theorem mergeTrees_singleton (fuel : Nat) (t : HuffTree) : mergeTrees fuel [t] = [t] := by cases fuel <;> rfl

/-- By induction on the rounds, merging leaves one tree with all the leaves (R223). -/
theorem mergeTrees_eq_singleton {fuel : Nat} {work : List HuffTree} (hne : work ≠ []) (hfuel : work.length ≤ fuel + 1) :
    ∃ t : HuffTree, mergeTrees fuel work = [t] ∧ t.syms.Perm (work.flatMap HuffTree.syms) := by
  have hsingle : ∀ (fuel : Nat) (t : HuffTree),
      ∃ u : HuffTree, mergeTrees fuel [t] = [u] ∧ u.syms.Perm ([t].flatMap HuffTree.syms) :=
    fun fuel t => ⟨t, mergeTrees_singleton fuel t, by simp⟩
  induction fuel generalizing work with
  | zero =>
    obtain ⟨t, rfl⟩ := List.length_eq_one_iff.1 (Nat.le_antisymm hfuel (List.length_pos_of_ne_nil hne))
    exact hsingle 0 t
  | succ fuel ih =>
    match work, hne with
    | [t], _ => exact hsingle (fuel + 1) t
    | t :: u :: ts, _ =>
      obtain ⟨work', hmerge, hlen, hperm⟩ := mergeTrees_step fuel t u ts
      simp only [List.length_cons] at hfuel
      obtain ⟨r, hr, hsyms⟩ := ih (List.ne_nil_of_length_eq_add_one hlen) (by omega)
      exact ⟨r, hmerge.trans hr, hsyms.trans hperm⟩

/-! ## The bytes that occur -/

/-- The bytes that occur, in ascending order (R222, R223). -/
def occurring (b : List Byte) : List Byte := ((List.range 256).map (BitVec.ofNat 8)).filter fun x => decide (x ∈ b)

theorem mem_occurring {b : List Byte} {x : Byte} : x ∈ occurring b ↔ x ∈ b := by
  have hx : x ∈ (List.range 256).map (BitVec.ofNat 8) :=
    List.mem_map.2 ⟨x.toNat, List.mem_range.2 x.isLt, by simp⟩
  simp [occurring, List.mem_filter, hx]

theorem nodup_occurring (b : List Byte) : (occurring b).Nodup := by
  refine ((List.nodup_range).map_on fun i hi j hj hij => ?_).filter _
  rw [List.mem_range] at hi hj
  have hnat := congrArg BitVec.toNat hij
  rwa [BitVec.toNat_ofNat, BitVec.toNat_ofNat, Nat.mod_eq_of_lt hi, Nat.mod_eq_of_lt hj] at hnat

theorem length_occurring_le (b : List Byte) : (occurring b).length ≤ 256 :=
  (List.length_filter_le _ _).trans (by simp)

/-- The leaves carry the bytes that occur (R222). -/
theorem flatMap_syms_leaves (b : List Byte) : (leaves b).flatMap HuffTree.syms = occurring b := by
  simp only [leaves, occurring, List.count_eq_zero, ite_not]
  induction List.range 256 with
  | nil => rfl
  | cons v vs ih =>
    by_cases hv : BitVec.ofNat 8 v ∈ b
    · simp [hv, ih, HuffTree.syms]
    · simp [hv, ih]

/-- The reference table of a non-empty byte sequence is the table of a tree whose leaves are the bytes that occur. -/
theorem exists_referenceTable_eq {b : List Byte} (hb : b ≠ []) :
    ∃ t : HuffTree, referenceTable b = t.table ∧ t.syms.Perm (occurring b) := by
  have hne : leaves b ≠ [] := by
    intro h0
    obtain ⟨x, hx⟩ := List.exists_mem_of_ne_nil b hb
    have hmem := mem_occurring.2 hx
    rw [← flatMap_syms_leaves, h0] at hmem
    exact List.not_mem_nil hmem
  obtain ⟨t, hmerge, hperm⟩ := mergeTrees_eq_singleton hne (Nat.le_succ _)
  rw [flatMap_syms_leaves] at hperm
  refine ⟨t, ?_, hperm⟩
  rw [referenceTable, hmerge]
  cases t <;> rfl

/-- Settles O56: the tree's leaves are the bytes that occur, at most 256, so no path is longer than 255. -/
theorem referenceTableIsPrefixFree : Obligations.ReferenceTableIsPrefixFree := by
  intro b hb
  obtain ⟨t, htable, hperm⟩ := exists_referenceTable_eq hb
  have hpos := t.length_syms_pos
  have hle : t.syms.length ≤ 256 := hperm.length_eq.trans_le (length_occurring_le b)
  have hlen : t.table.length = t.syms.length := by rw [← t.map_fst_table, List.length_map]
  rw [htable, t.map_fst_table, hlen]
  refine ⟨fun x => hperm.mem_iff.trans mem_occurring, hperm.nodup_iff.2 (nodup_occurring b), hpos, hle,
    fun r hr => ⟨HuffTree.code_pos_of_mem_table hr, ?_⟩, t.table_pairwise⟩
  have hcode := HuffTree.code_le_of_mem_table hr
  omega

end Sys2Proof.Machine
end

section
/-! PROOFS about what the host does with HCB (30_encoding.md R98, 20_memory.md R72): lines one after the other, register
reads, and the reader's stream known by the bits it holds. -/

namespace Sys2Proof.Machine

open Sys2Proof.Claims

/-! ## Lines one after the other -/

/-- HCB refuses no access of a line (R98). -/
theorem hostEvent_line_answers {l : Line} {e : HostEvent} (he : e ∈ l.events) (s : State) :
    ∃ t, hostEvent e s = .next t := by
  have hwrite : ∀ (r : Reg) (v : Word), ∃ t, hostEvent (.write r.offset 4 v) s = .next t := fun r v => by
    rw [hostEvent_write_reaches (accessReg_offset r)]
    exact writeReg_answers r v s
  match l, he with
  | .cmd i none, he =>
    obtain rfl := List.mem_singleton.1 he
    exact hwrite .cmd _
  | .cmd i (some a), he =>
    rcases List.mem_pair.1 he with rfl | rfl
    · exact hwrite .arg _
    · exact hwrite .cmd _
  | .readReg r, he =>
    obtain rfl := List.mem_singleton.1 he
    exact ⟨_, hostEvent_read_reaches (accessReg_offset r) s⟩
  | .writeArg v, he =>
    obtain rfl := List.mem_singleton.1 he
    exact hwrite .arg _

theorem runEvents_answers {es : List HostEvent} (h : ∀ e ∈ es, ∀ s, ∃ t, hostEvent e s = .next t) (s : State) :
    ∃ t, runEvents es s = .next t := by
  induction es generalizing s with
  | nil => exact ⟨s, rfl⟩
  | cons e es ih =>
    obtain ⟨he, hes⟩ := List.forall_mem_cons.1 h
    obtain ⟨t, ht⟩ := he s
    rw [runEvents_cons ht]
    exact ih hes t

theorem afterLines_eq {p : List Line} {s t : State} (h : runEvents (programEvents p) s = .next t) :
    afterLines p s = t := by rw [afterLines, h]

/-- `afterLines` is where the events of the lines lead: none of them is refused (log 17). -/
theorem runEvents_programEvents (p : List Line) (s : State) :
    runEvents (programEvents p) s = .next (afterLines p s) := by
  obtain ⟨t, ht⟩ := runEvents_answers (es := programEvents p)
    (fun e he u => by
      obtain ⟨l, -, hl⟩ := List.mem_flatMap.1 he
      exact hostEvent_line_answers hl u) s
  rw [ht, afterLines_eq ht]

theorem afterLines_append (p q : List Line) (s : State) : afterLines (p ++ q) s = afterLines q (afterLines p s) := by
  have hevents : programEvents (p ++ q) = programEvents p ++ programEvents q := List.flatMap_append
  refine afterLines_eq ?_
  rw [hevents, runEvents_append, runEvents_programEvents p s]
  exact runEvents_programEvents q _

theorem afterLines_cons (l : Line) (p : List Line) (s : State) :
    afterLines (l :: p) s = afterLines p (afterLines [l] s) := afterLines_append [l] p s

/-- A line of a command without an operand in ARG performs the command (R98). -/
theorem afterLines_cmd {i : Instr} {s t : State} (hrst : s.rstN = true) (herr : s.err = 0) (hwf : i.wf = true)
    (h : exec i s = .next t) : afterLines [.cmd i none] s = t :=
  afterLines_eq (runEvents_line hrst herr hwf h [])

/-- A line of a command with an operand sets ARG and performs the command (R98). -/
theorem afterLines_cmd_arg {i : Instr} {v : Word} {s t : State} (hrst : s.rstN = true) (herr : s.err = 0)
    (hwf : i.wf = true) (h : exec i (s.withArg v) = .next t) : afterLines [.cmd i (some v)] s = t :=
  afterLines_eq (runEvents_line_arg hrst herr hwf h [])

/-- The line `sreset` resets HCB, blocked or not (R211). -/
theorem afterLines_sreset {s : State} (hrst : s.rstN = true) : afterLines [.cmd .sreset none] s = s.resetRegs := by
  have hword : encode .sreset = sresetWord := by decide
  have hevent : hostEvent (cmdEvent (encode .sreset)) s = .next s.resetRegs := by
    rw [hword, hostEvent_cmd _ s hrst, dispatchWord_sresetWord]
    rfl
  exact afterLines_eq (runEvents_cons hevent [])

/-! ## Register reads -/

/-- The host gets the register's value, and HCB has answered once more (R72). -/
theorem hostRead_eq (r : Reg) {s : State} (hrst : s.rstN = true) :
    hostRead r s = (regValue r s, s.respond (regValue r s)) := by
  have hread : afterLines [.readReg r] s = s.respond (regValue r s) :=
    afterLines_eq (runEvents_cons (hostEvent_read r s hrst) [])
  rw [hostRead, hread]
  rfl

/-- STATUS.ERR is STATUS[3:0] (R25). -/
theorem extractLsb'_status (s : State) : s.status.extractLsb' 0 4 = s.err := by
  refine BitVec.eq_of_getLsbD_eq fun j hj => ?_
  rw [BitVec.getLsbD_extractLsb', Nat.zero_add, getLsbD_status, if_pos hj, decide_eq_true hj, Bool.true_and]

theorem readErr_eq {s : State} (hrst : s.rstN = true) : readErr s = (s.err, s.respond s.status) := by
  rw [readErr, hostRead_eq .status hrst]
  exact congrArg (·, _) (extractLsb'_status s)

/-- The low byte of a register that holds a byte. -/
theorem extractLsb'_setWidth_byte (x : Byte) : (x.setWidth 32).extractLsb' 0 8 = x := by
  refine BitVec.eq_of_getLsbD_eq fun j hj => ?_
  have hj' : j < 32 := by omega
  simp [hj, hj']

/-! ## The reader's stream by its bits -/

/-- The reader's stream has the bits `c` at position `p` (R66). -/
def State.Holds (d : State) (p : Nat) (c : Bits) : Prop := p + c.length ≤ 8 * d.ilen ∧ d.inBits p c.length = c

theorem State.Holds.inBit {d : State} {p j : Nat} {c : Bits} (h : d.Holds p c) (hj : j < c.length) :
    d.inBit (p + j) = c.getD j false := by
  obtain ⟨-, hbits⟩ := h
  rw [← hbits, getD_inBits, decide_eq_true hj, Bool.true_and]

theorem State.Holds.append {d : State} {p : Nat} {b c : Bits} (h : d.Holds p (b ++ c)) :
    d.Holds p b ∧ d.Holds (p + b.length) c := by
  obtain ⟨hin, hbits⟩ := h
  rw [List.length_append] at hin hbits
  rw [inBits_append] at hbits
  obtain ⟨hb, hc⟩ := List.append_inj hbits (length_inBits d p b.length)
  exact ⟨⟨by omega, hb⟩, by omega, hc⟩

/-- R_INT32 reads back the bits of a word (R155). -/
theorem exec_rInt32_of_holds {d : State} {n : Word} (h : d.Holds d.rbits (bitsOf 32 n)) :
    exec .rInt32 d = .next ((d.withRes n).withRbits (d.rbits + 32)) := by
  obtain ⟨hin, hbits⟩ := h
  rw [length_bitsOf] at hin hbits
  have hleft : 32 ≤ d.inRem := by
    rw [State.inRem]
    omega
  rw [exec_rInt32_enough hleft, State.takeBits, hbits, ofNat_ofBits_bitsOf]

/-- Each row ends inside its serialized table (R104). -/
theorem rowEnd_le {t : List Row} {i : Nat} {r : Row} (hr : t[i]? = some r) :
    rowStart t i + (16 + r.len.toNat) ≤ rowStart t t.length := by
  induction t generalizing i with
  | nil => simp at hr
  | cons q t ih =>
    rw [List.length_cons, rowStart_cons_succ]
    cases i with
    | zero =>
      obtain rfl : q = r := by simpa using hr
      have h8 := eight_le_rowStart t t.length
      rw [rowStart_zero]
      omega
    | succ i =>
      have hrest := ih (i := i) (by simpa using hr)
      rw [rowStart_cons_succ]
      omega

/-- R_TABLE reads back the bits of a table of complete rows (R175). -/
theorem exec_rTable_of_holds {d : State} {t : List Row} (hpos : 1 ≤ t.length) (hle : t.length ≤ 256)
    (ht : ∀ r ∈ t, r.len ≠ 0 ∧ r.code.length = r.len.toNat) (h : d.Holds d.rbits (tableBits t)) :
    exec .rTable d =
      .next (((d.withTbl t).withRbits (d.rbits + (tableBits t).length)).withRes (BitVec.ofNat 32 t.length)) := by
  have hc : ∀ r ∈ t, r.code.length = r.len.toNat := fun r hr => (ht r hr).2
  have hlen := length_tableBits hc
  have hin : d.rbits + rowStart t t.length ≤ 8 * d.ilen := hlen ▸ h.1
  have h8 : 8 ≤ (tableBits t).length := hlen ▸ eight_le_rowStart t t.length
  rw [hlen]
  refine rTableReadsBackEveryTable.2 d t hpos hle ht hin (fun j hj => ?_) fun i r hr => ?_
  · rw [h.inBit (by omega), getD_tableBits_count hj]
  have hend : rowStart t i + (16 + r.len.toNat) ≤ (tableBits t).length := hlen ▸ rowEnd_le hr
  have hbit : ∀ k < 16 + r.len.toNat, d.inBit (d.rbits + rowStart t i + k) = (rowBits r).getD k false := by
    intro k hk
    rw [Nat.add_assoc, h.inBit (by omega), getD_tableBits_row hc hr hk]
  refine ⟨fun j hj => ?_, fun j hj => ?_, fun j hj => ?_⟩
  · rw [hbit j (by omega), getD_rowBits_sym r hj]
  · rw [Nat.add_assoc _ 8, hbit (8 + j) (by omega), getD_rowBits_len r hj]
  · rw [Nat.add_assoc _ 16, hbit (16 + j) (by omega), getD_rowBits_code]

end Sys2Proof.Machine
end

section
/-! PROOFS about the two pipelines (46_host_procedures.md R220, R221, R227): the bits that the compressor writes, the
packed bytes that it emits, and the decompressor on a stream that begins with such bits. -/

namespace Sys2Proof.Machine

open Sys2Proof.Claims

/-! ## Loading a table -/

/-- A table that can be loaded: 1 to 256 rows with codes of 1 to 255 bits (R99, R225). -/
structure Loadable (rows : List (Byte × Bits)) : Prop where
  ne_nil : rows ≠ []
  length_le : rows.length ≤ 256
  code_pos : ∀ r ∈ rows, 1 ≤ r.2.length
  code_le : ∀ r ∈ rows, r.2.length ≤ 255

/-- The row of the table memory that `t_load` leaves (R99). -/
def loadedRow (r : Byte × Bits) : Row := ⟨r.1, BitVec.ofNat 8 r.2.length, r.2⟩

theorem toNat_loadedRow_len {r : Byte × Bits} (h : r.2.length ≤ 255) : (loadedRow r).len.toNat = r.2.length := by
  rw [loadedRow, BitVec.toNat_ofNat, Nat.mod_eq_of_lt (by omega)]

theorem Loadable.length_loaded {rows : List (Byte × Bits)} (h : Loadable rows) :
    1 ≤ (rows.map loadedRow).length ∧ (rows.map loadedRow).length ≤ 256 := by
  rw [List.length_map]
  exact ⟨List.length_pos_iff.2 h.ne_nil, h.length_le⟩

/-- The rows left by loading a table are complete and have codes. -/
theorem Loadable.loadedRow_wf {rows : List (Byte × Bits)} (h : Loadable rows) :
    ∀ r ∈ rows.map loadedRow, r.len ≠ 0 ∧ r.code.length = r.len.toNat := by
  intro r hr
  obtain ⟨q, hq, rfl⟩ := List.mem_map.1 hr
  have hlen := toNat_loadedRow_len (h.code_le q hq)
  refine ⟨fun h0 => ?_, hlen.symm⟩
  have hpos := h.code_pos q hq
  rw [h0, BitVec.ofNat_eq_ofNat, BitVec.toNat_zero] at hlen
  omega

/-- By induction on the rows, step 3 of R220 puts them behind those of the table. -/
theorem afterLines_tLoads {rows : List (Byte × Bits)} {s : State} (hrst : s.rstN = true) (herr : s.err = 0)
    (hroom : s.tbln + rows.length ≤ 256) (hpos : ∀ r ∈ rows, 1 ≤ r.2.length) (hle : ∀ r ∈ rows, r.2.length ≤ 255) :
    ∃ a, afterLines (rows.flatMap fun r => tLoad r.1 r.2) s =
      (s.withTbl (s.tbl ++ rows.map loadedRow)).withArg a := by
  induction rows generalizing s with
  | nil => exact ⟨s.arg, by rw [List.map_nil, List.append_nil]; rfl⟩
  | cons r rows ih =>
    obtain ⟨hrpos, hpos'⟩ := List.forall_mem_cons.1 hpos
    obtain ⟨hrle, hle'⟩ := List.forall_mem_cons.1 hle
    rw [List.length_cons] at hroom
    obtain ⟨t, hrun, ht⟩ := tLoadLoadsTheWholeCode r.1 r.2 s hrst herr (by omega) hrpos hrle
    obtain ⟨a, rfl⟩ : ∃ a, t = (s.withTbl (s.tbl ++ [loadedRow r])).withArg a := ⟨t.arg, ht⟩
    have hroom' : ((s.withTbl (s.tbl ++ [loadedRow r])).withArg a).tbln + rows.length ≤ 256 := by
      simp only [State.tbln, State.withArg_tbl, State.withTbl_tbl, List.length_append, List.length_singleton] at hroom ⊢
      omega
    obtain ⟨a', hrest⟩ := ih (s := (s.withTbl (s.tbl ++ [loadedRow r])).withArg a) hrst herr hroom' hpos' hle'
    refine ⟨a', ?_⟩
    rw [List.flatMap_cons, afterLines_append, afterLines_eq hrun, hrest, State.withArg_tbl, State.withTbl_tbl,
      List.append_assoc]
    rfl

/-! ## Writing the symbols -/

/-- The rows whose codes W_SYM appends for the bytes `b` (R191). -/
def symRows (t : List Row) (b : List Byte) : List Row := b.filterMap fun x => t.find? fun r => r.sym == x

theorem symRows_subset (t : List Row) (b : List Byte) : symRows t b ⊆ t := fun r hr => by
  obtain ⟨x, -, hx⟩ := List.mem_filterMap.1 hr
  exact List.mem_of_find?_eq_some hx

/-- A symbol of the table has a row that is looked up for it. -/
theorem exists_find?_sym {t : List Row} {x : Byte} (hx : x ∈ t.map Row.sym) :
    ∃ r, t.find? (fun r => r.sym == x) = some r ∧ r.sym = x := by
  obtain ⟨q, hq, hqx⟩ := List.mem_map.1 hx
  obtain ⟨r, hr⟩ := Option.isSome_iff_exists.1 (List.find?_isSome (p := fun r => r.sym == x).2
    ⟨q, hq, beq_iff_eq.2 hqx⟩)
  exact ⟨r, hr, by simpa using List.find?_some hr⟩

theorem symRows_cons {t : List Row} {x : Byte} {r : Row} (h : t.find? (fun r => r.sym == x) = some r) (b : List Byte) :
    symRows t (x :: b) = r :: symRows t b := List.filterMap_cons_some h

theorem symRows_cons_none {t : List Row} {x : Byte} (h : t.find? (fun r => r.sym == x) = none) (b : List Byte) :
    symRows t (x :: b) = symRows t b := List.filterMap_cons_none h

theorem map_sym_symRows {t : List Row} {b : List Byte} (hb : ∀ x ∈ b, x ∈ t.map Row.sym) :
    (symRows t b).map Row.sym = b := by
  induction b with
  | nil => rfl
  | cons x b ih =>
    obtain ⟨hx, hb'⟩ := List.forall_mem_cons.1 hb
    obtain ⟨r, hr, hsym⟩ := exists_find?_sym hx
    rw [symRows_cons hr, List.map_cons, hsym, ih hb']

/-- The payload of bytes `b` with table `t`: one codeword for each byte (R105). -/
def payloadBits (t : List Row) (b : List Byte) : Bits := (symRows t b).flatMap Row.code

theorem payloadBits_cons {t : List Row} {x : Byte} {r : Row} (h : t.find? (fun r => r.sym == x) = some r)
    (b : List Byte) : payloadBits t (x :: b) = r.code ++ payloadBits t b := by
  rw [payloadBits, symRows_cons h, List.flatMap_cons, payloadBits]

/-- By induction on the bytes, step 6 of R220 appends their payload. -/
theorem afterLines_wSyms {b : List Byte} {s : State} (hrst : s.rstN = true) (herr : s.err = 0)
    (hc : s.complete = true) (hb : ∀ x ∈ b, x ∈ s.tbl.map Row.sym)
    (hfit : s.wbits + (payloadBits s.tbl b).length ≤ s.cfg.outCapBits) :
    afterLines (b.map fun x => .cmd (.wSym x) none) s = s.appendBits (payloadBits s.tbl b) := by
  induction b generalizing s with
  | nil => exact (appendBits_nil s).symm
  | cons x b ih =>
    obtain ⟨hx, hb'⟩ := List.forall_mem_cons.1 hb
    obtain ⟨r, hr, -⟩ := exists_find?_sym hx
    rw [payloadBits_cons hr, List.length_append] at hfit
    have hexec : exec (.wSym x) s = .next (s.appendBits r.code) :=
      (exec_wSym_row hc hr).trans (appendChecked_fits (by omega))
    have hrest := ih (s := s.appendBits r.code) hrst herr hc hb' (by
      rw [wbits_appendBits, State.appendBits_tbl, State.appendBits_cfg]
      omega)
    rw [List.map_cons, afterLines_cons, afterLines_cmd hrst herr rfl hexec, hrest, State.appendBits_tbl,
      appendBits_appendBits, payloadBits_cons hr]

/-! ## The stream -/

/-- The bits of a stream: count, table and payload (R101 to R105). -/
def streamOf (t : List Row) (n : Word) (b : List Byte) : Bits := bitsOf 32 n ++ (tableBits t ++ payloadBits t b)

/-- Step 4 of R220 where the count fits. -/
theorem afterLines_wInt32 {n : Word} {s : State} (hrst : s.rstN = true) (herr : s.err = 0)
    (hfit : s.wbits + 32 ≤ s.cfg.outCapBits) :
    afterLines [.cmd .wInt32 (some n)] s = (s.withArg n).appendBits (bitsOf 32 n) :=
  afterLines_cmd_arg hrst herr rfl (exec_wInt32_fits (s := s.withArg n) hfit)

/-- Step 5 of R220 where the table fits. -/
theorem afterLines_wTable {s : State} (hrst : s.rstN = true) (herr : s.err = 0) (hne : s.tbl ≠ [])
    (hc : s.complete = true) (hfit : s.wbits + (tableBits s.tbl).length ≤ s.cfg.outCapBits) :
    afterLines [.cmd .wTable none] s = s.appendBits (tableBits s.tbl) :=
  afterLines_cmd hrst herr rfl ((exec_wTable_complete hne hc).trans (appendChecked_fits hfit))

/-- Steps 4 to 6 of R220 append the stream. -/
theorem afterLines_stream {n : Word} {b : List Byte} {s : State} (hrst : s.rstN = true) (herr : s.err = 0)
    (hne : s.tbl ≠ []) (hc : s.complete = true) (hb : ∀ x ∈ b, x ∈ s.tbl.map Row.sym)
    (hfit : s.wbits + (streamOf s.tbl n b).length ≤ s.cfg.outCapBits) :
    afterLines ([.cmd .wInt32 (some n), .cmd .wTable none] ++ b.map fun x => .cmd (.wSym x) none) s =
      (s.withArg n).appendBits (streamOf s.tbl n b) := by
  simp only [streamOf, List.length_append, length_bitsOf] at hfit
  have hcount := afterLines_wInt32 (n := n) hrst herr (show s.wbits + 32 ≤ s.cfg.outCapBits by omega)
  have htable := afterLines_wTable (s := (s.withArg n).appendBits (bitsOf 32 n)) hrst herr hne hc (by
    rw [wbits_appendBits, length_bitsOf]
    change s.wbits + 32 + (tableBits s.tbl).length ≤ s.cfg.outCapBits
    omega)
  have hpayload := afterLines_wSyms (s := ((s.withArg n).appendBits (bitsOf 32 n)).appendBits (tableBits s.tbl))
    hrst herr hc hb (by
      rw [wbits_appendBits, wbits_appendBits, length_bitsOf]
      change s.wbits + 32 + (tableBits s.tbl).length + (payloadBits s.tbl b).length ≤ s.cfg.outCapBits
      omega)
  rw [List.cons_append, afterLines_cons, hcount, List.singleton_append, afterLines_cons, htable]
  exact hpayload.trans (by rw [appendBits_appendBits, appendBits_appendBits]; rfl)

/-- Steps 2 to 6 of R220 leave the table loaded, the count in ARG and the stream in the writer, whatever was there. -/
theorem afterLines_compressLines {rows : List (Byte × Bits)} {n : Word} {b : List Byte} {s : State}
    (hrows : Loadable rows) (hb : ∀ x ∈ b, x ∈ rows.map Prod.fst) (hrst : s.rstN = true)
    (hfit : (streamOf (rows.map loadedRow) n b).length ≤ s.cfg.outCapBits) :
    afterLines (compressLines rows n b) s =
      ((s.resetRegs.withTbl (rows.map loadedRow)).withArg n).appendBits (streamOf (rows.map loadedRow) n b) := by
  obtain ⟨a, hload⟩ := afterLines_tLoads (rows := rows) (s := s.resetRegs) hrst rfl
    (by simpa [State.tbln] using hrows.length_le) hrows.code_pos hrows.code_le
  have hstream := afterLines_stream (n := n) (b := b) (s := (s.resetRegs.withTbl (rows.map loadedRow)).withArg a)
    hrst rfl (by simpa using hrows.ne_nil) (complete_iff.2 fun r hr => (hrows.loadedRow_wf r hr).2)
    (by simpa [loadedRow] using hb) (by simpa [State.wbits] using hfit)
  have hlines : compressLines rows n b = .cmd .sreset none :: (rows.flatMap fun r => tLoad r.1 r.2) ++
      ([.cmd .wInt32 (some n), .cmd .wTable none] ++ b.map fun x => .cmd (.wSym x) none) := by
    rw [compressLines, List.append_assoc]
  rw [hlines, afterLines_append, afterLines_cons, afterLines_sreset hrst, hload]
  exact hstream

/-! ## The packed bytes -/

/-- The packed stream, byte by byte (R106). -/
def State.packedBytes (s : State) : List Byte := (List.range (ceil8 s.wbits)).map s.outByte

@[simp] theorem length_packedBytes (s : State) : s.packedBytes.length = ceil8 s.wbits := by simp [State.packedBytes]

/-- The state after `w_getb i` and the read of RES (step 8 of R220). -/
def State.byteRead (i : Nat) (s : State) : State :=
  ((s.withArg (BitVec.ofNat 32 i)).withRes ((s.outByte i).setWidth 32)).respond ((s.outByte i).setWidth 32)

theorem readOut_succ {i : Nat} {s : State} (hrst : s.rstN = true) (herr : s.err = 0) (hi : i < ceil8 s.wbits)
    (h32 : i < 2 ^ 32) (k : Nat) :
    readOut (k + 1) i s =
      (s.outByte i :: (readOut k (i + 1) (s.byteRead i)).1, (readOut k (i + 1) (s.byteRead i)).2) := by
  have hindex : (s.withArg (BitVec.ofNat 32 i)).argIndex = i := by
    rw [State.argIndex, State.withArg_arg, BitVec.toNat_ofNat, Nat.mod_eq_of_lt h32]
  have hexec := exec_wGetb_inside (s := s.withArg (BitVec.ofNat 32 i)) (hindex.symm ▸ hi)
  rw [hindex] at hexec
  have hget : afterLines [.cmd .wGetb (some (BitVec.ofNat 32 i))] s =
      (s.withArg (BitVec.ofNat 32 i)).withRes ((s.outByte i).setWidth 32) := afterLines_cmd_arg hrst herr rfl hexec
  have hread : hostRead .res ((s.withArg (BitVec.ofNat 32 i)).withRes ((s.outByte i).setWidth 32)) =
      ((s.outByte i).setWidth 32, s.byteRead i) := hostRead_eq .res hrst
  simp only [readOut, hget, hread, extractLsb'_setWidth_byte]

/-- By induction on the bytes, step 8 of R220 reads the packed bytes in turn and raises no error. -/
theorem readOut_spec {k i : Nat} {s : State} (hrst : s.rstN = true) (herr : s.err = 0) (hin : i + k ≤ ceil8 s.wbits)
    (h32 : ceil8 s.wbits < 2 ^ 32) :
    (readOut k i s).1 = (List.range' i k).map s.outByte ∧ (readOut k i s).2.rstN = true ∧
      (readOut k i s).2.err = 0 := by
  induction k generalizing i s with
  | zero => exact ⟨rfl, hrst, herr⟩
  | succ k ih =>
    obtain ⟨hbytes, hrst', herr'⟩ := ih (i := i + 1) (s := s.byteRead i) hrst herr
      (show i + 1 + k ≤ ceil8 s.wbits by omega) h32
    rw [readOut_succ hrst herr (by omega) (by omega)]
    exact ⟨congrArg (s.outByte i :: ·) hbytes, hrst', herr'⟩

/-- Steps 7 to 9 of R220: a writer without an error gives out its packed bytes. -/
theorem compress_of_afterLines {n : Word} {b : List Byte} {s e : State} (hne : referenceTable b ≠ [])
    (hlines : afterLines (compressLines (referenceTable b) n b) s = e) (hrst : e.rstN = true) (herr : e.err = 0)
    (h32 : ceil8 e.wbits < 2 ^ 32) : compress n b s = .emitted e.packedBytes := by
  have hstatus := readErr_eq hrst
  have hlen : afterLines [.cmd .wLen none] (e.respond e.status) =
      (e.respond e.status).withRes (BitVec.ofNat 32 (ceil8 e.wbits)) := afterLines_cmd hrst herr rfl rfl
  have hres := hostRead_eq .res (s := (e.respond e.status).withRes (BitVec.ofNat 32 (ceil8 e.wbits))) hrst
  have hnat : (BitVec.ofNat 32 (ceil8 e.wbits)).toNat = ceil8 e.wbits := by
    rw [BitVec.toNat_ofNat, Nat.mod_eq_of_lt h32]
  obtain ⟨hbytes, hrst', herr'⟩ := readOut_spec (k := ceil8 e.wbits) (i := 0)
    (s := ((e.respond e.status).withRes (BitVec.ofNat 32 (ceil8 e.wbits))).respond (BitVec.ofNat 32 (ceil8 e.wbits)))
    hrst herr (Nat.zero_add _).le h32
  have hend := readErr_eq hrst'
  have hpacked : (List.range' 0 (ceil8 e.wbits)).map e.outByte = e.packedBytes := by
    rw [← List.range_eq_range', State.packedBytes]
  simp only [compress, if_neg hne, hlines, hstatus, herr, ne_eq, not_true_eq_false, if_false, hlen, hres, regValue,
    State.withRes_res, hnat, hend, herr', hbytes]
  exact congrArg RunEnd.emitted hpacked

/-- The host compressor emits the packed bytes of a writer that holds the stream, where the table can be loaded and has a
row for each byte, and the stream fits the buffer (R220, R229). -/
theorem compress_emits {n : Word} {b : List Byte} {s : State} (hrows : Loadable (referenceTable b))
    (hb : ∀ x ∈ b, x ∈ (referenceTable b).map Prod.fst) (hrst : s.rstN = true) (hcap : s.cfg.outCapBits < 2 ^ 32)
    (hfit : (streamOf ((referenceTable b).map loadedRow) n b).length ≤ s.cfg.outCapBits) :
    ∃ e : State, e.obuf = streamOf ((referenceTable b).map loadedRow) n b ∧
      compress n b s = .emitted e.packedBytes := by
  have hceil : ceil8 (streamOf ((referenceTable b).map loadedRow) n b).length < 2 ^ 32 := by
    rw [ceil8]
    omega
  have hlines := afterLines_compressLines hrows hb hrst hfit
  exact ⟨_, List.nil_append _, compress_of_afterLines hrows.ne_nil hlines hrst rfl hceil⟩

/-! ## Loading a stream -/

/-- A reader that holds the packed bytes of a writer holds the writer's stream (R61, R66). -/
theorem holds_packedBytes {d s : State} (h : d.ibuf = s.packedBytes) : d.Holds 0 s.obuf := by
  have hilen : d.ilen = ceil8 s.wbits := by rw [State.ilen, h, length_packedBytes]
  have hceil : s.wbits ≤ 8 * ceil8 s.wbits := by
    rw [ceil8]
    omega
  refine ⟨?_, inBits_eq d 0 s.obuf fun j hj => ?_⟩
  · rw [hilen, Nat.zero_add]
    exact hceil
  · have hbyte : j / 8 < ceil8 s.wbits := Nat.div_lt_of_lt_mul (Nat.lt_of_lt_of_le hj hceil)
    have hget : d.ibuf.getD (j / 8) 0 = s.outByte (j / 8) := by
      simp [h, State.packedBytes, List.getD_eq_getElem?_getD, hbyte]
    rw [Nat.zero_add, State.inBit, hget, getLsbD_outByte _ _ _ (Nat.mod_lt j (by decide)), Nat.div_add_mod,
      State.outBit]

/-- By induction on the bytes, `r_load` puts them behind those of the reader's stream where they fit (R99). -/
theorem afterLines_rLoad {bs : List Byte} {d : State} (hrst : d.rstN = true) (herr : d.err = 0)
    (hfit : d.ilen + bs.length ≤ d.cfg.inCapBytes) :
    ∃ a, afterLines (rLoad bs) d = (d.withIbuf (d.ibuf ++ bs)).withArg a := by
  induction bs generalizing d with
  | nil => exact ⟨d.arg, by rw [List.append_nil]; rfl⟩
  | cons x bs ih =>
    rw [List.length_cons] at hfit
    have hroom : (d.withArg (x.setWidth 32)).ilen ≠ d.cfg.inCapBytes := by
      change d.ilen ≠ _
      omega
    have hexec := exec_rPutb_room (s := d.withArg (x.setWidth 32)) hroom
    have hbyte : (d.withArg (x.setWidth 32)).argByte = x := extractLsb'_setWidth_byte x
    rw [hbyte] at hexec
    obtain ⟨a, hrest⟩ := ih (d := (d.withArg (x.setWidth 32)).withIbuf (d.ibuf ++ [x])) hrst herr (by
      change (d.ibuf ++ [x]).length + bs.length ≤ d.cfg.inCapBytes
      rw [State.ilen] at hfit
      rw [List.length_append, List.length_singleton]
      omega)
    refine ⟨a, ?_⟩
    rw [rLoad, List.map_cons, afterLines_cons, afterLines_cmd_arg hrst herr rfl hexec]
    refine hrest.trans ?_
    rw [State.withIbuf_ibuf, List.append_assoc]
    rfl

/-! ## Decoding symbols -/

/-- Decoding symbols that succeeds goes on from the first symbol's state, which has no error. -/
theorem decodeAll_succ {k : Nat} {s u : State} {ws : List Word} (h : decodeAll (k + 1) s = some (ws, u)) :
    ∃ t ws', exec .rSym s = .next t ∧ t.err = 0 ∧ decodeAll k t = some (ws', u) ∧ ws = t.res :: ws' := by
  rw [decodeAll] at h
  split at h
  · rename_i t hexec
    split_ifs at h with herr
    obtain ⟨⟨ws', v⟩, hrest, hpair⟩ := Option.map_eq_some_iff.1 h
    obtain ⟨rfl, rfl⟩ := Prod.mk.inj hpair
    exact ⟨t, ws', hexec, herr, hrest, rfl⟩
  · cases h

theorem decodeAll_withHostSide (es : List HostEvent) (rs : List Word) (l : Bool) {k : Nat} {s u : State}
    {ws : List Word} (h : decodeAll k s = some (ws, u)) :
    decodeAll k (s.withHostSide es rs l) = some (ws, u.withHostSide es rs l) := by
  induction k generalizing s ws with
  | zero =>
    obtain ⟨rfl, rfl⟩ := Prod.mk.inj (Option.some.inj h)
    rfl
  | succ k ih =>
    obtain ⟨t, ws', hexec, herr, hrest, rfl⟩ := decodeAll_succ h
    have hexec' : exec .rSym (s.withHostSide es rs l) = .next (t.withHostSide es rs l) := by
      rw [exec_withHostSide, hexec, mapNext_next]
    have herr' : (t.withHostSide es rs l).err = 0 := herr
    rw [decodeAll, hexec']
    simp only [herr', if_true, ih hrest, Option.map_some]
    rfl

/-- By induction on the symbols, step 7 of R221 reads the low bytes of what R_SYM gives and raises no error: the host's
reads between the commands change nothing that R_SYM looks at. -/
theorem decodeOut_of_decodeAll {k : Nat} {s u : State} {ws : List Word} (hrst : s.rstN = true) (herr : s.err = 0)
    (h : decodeAll k s = some (ws, u)) :
    (decodeOut k s).1 = ws.map (fun w => w.extractLsb' 0 8) ∧ (decodeOut k s).2.rstN = true ∧
      (decodeOut k s).2.err = 0 := by
  induction k generalizing s u ws with
  | zero =>
    obtain ⟨rfl, rfl⟩ := Prod.mk.inj (Option.some.inj h)
    exact ⟨rfl, hrst, herr⟩
  | succ k ih =>
    obtain ⟨t, ws', hexec, herr', hrest, rfl⟩ := decodeAll_succ h
    have hrst' : t.rstN = true := (exec_frame hexec).2.1.trans hrst
    have hline : afterLines [.cmd .rSym none] s = t := afterLines_cmd hrst herr rfl hexec
    have hread : hostRead .res t = (t.res, t.respond t.res) := hostRead_eq .res hrst'
    have hrest' := decodeAll_withHostSide t.inputs (t.res :: t.responses) t.rstN hrest
    obtain ⟨hbytes, hlast⟩ := ih (s := t.respond t.res) hrst' herr' hrest'
    simp only [decodeOut, hline, hread]
    exact ⟨congrArg (t.res.extractLsb' 0 8 :: ·) hbytes, hlast⟩

/-! ## The decompressor -/

/-- Steps 1 to 3 of R221 on bytes that fit and begin with the word `n`. -/
theorem afterLines_readCount {out : List Byte} {n : Word} {d : State} (hrst : d.rstN = true)
    (hfit : out.length ≤ d.cfg.inCapBytes) (hcount : (d.resetRegs.withIbuf out).Holds 0 (bitsOf 32 n)) :
    ∃ a, afterLines (.cmd .sreset none :: rLoad out ++ [.cmd .rInt32 none]) d =
      (((d.resetRegs.withIbuf out).withArg a).withRes n).withRbits 32 := by
  obtain ⟨a, hload⟩ := afterLines_rLoad (bs := out) (d := d.resetRegs) hrst rfl (by simpa [State.ilen] using hfit)
  rw [State.resetRegs_ibuf, List.nil_append] at hload
  have hexec := exec_rInt32_of_holds (d := (d.resetRegs.withIbuf out).withArg a) hcount
  refine ⟨a, ?_⟩
  rw [List.cons_append, afterLines_cons, afterLines_sreset hrst, afterLines_append, hload]
  exact afterLines_cmd hrst rfl rfl hexec

/-- The count field of a stream read as a signed number (R221). -/
theorem toInt_ofNat_of_lt {m : Nat} (h : m < 2 ^ 31) : (BitVec.ofNat 32 m).toInt = m := by
  rw [BitVec.toInt_ofNat']
  exact Int.bmod_eq_of_le (by omega) (by omega)

/-- Steps 4 to 8 of R221: where the count has been read and the reader goes on with a `PrefixFree` table and the codes of
so many of its rows, the symbols of the rows are emitted. -/
theorem decompress_of_afterLines {t rows : List Row} {out : List Byte} {d e : State} (hpos : 1 ≤ t.length)
    (hle : t.length ≤ 256) (ht : ∀ r ∈ t, r.len ≠ 0 ∧ r.code.length = r.len.toNat) (hfree : PrefixFree t)
    (hrows : rows ⊆ t) (hcount : e.res.toInt = rows.length)
    (hlines : afterLines (.cmd .sreset none :: rLoad out ++ [.cmd .rInt32 none]) d = e) (hrst : e.rstN = true)
    (herr : e.err = 0) (hholds : e.Holds e.rbits (tableBits t ++ rows.flatMap Row.code)) :
    decompress out d = .emitted (rows.map Row.sym) := by
  obtain ⟨htable, hpayload⟩ := hholds.append
  obtain ⟨f, hexec, hfrst, hferr, rfl, hin, hbits⟩ : ∃ f, exec .rTable (e.respond e.res) = .next f ∧ f.rstN = true ∧
      f.err = 0 ∧ f.tbl = t ∧ f.Holds f.rbits (rows.flatMap Row.code) :=
    ⟨_, exec_rTable_of_holds (d := e.respond e.res) hpos hle ht htable, hrst, herr, rfl, hpayload⟩
  obtain ⟨u, hdec, -⟩ := decodeAll_rows (d := f.respond f.status) hferr (fun r hr => (ht r hr).2) hfree hrows hin hbits
  obtain ⟨hbytes, hrst', herr'⟩ := decodeOut_of_decodeAll (s := f.respond f.status) hfrst hferr hdec
  have hread := hostRead_eq .res hrst
  have hload : afterLines [.cmd .rTable none] (e.respond e.res) = f := afterLines_cmd hrst herr rfl hexec
  have hsyms : (rows.map fun r => r.sym.setWidth 32).map (fun w => w.extractLsb' 0 8) = rows.map Row.sym := by
    rw [List.map_map]
    exact List.map_congr_left fun r _ => extractLsb'_setWidth_byte r.sym
  have hnat : ¬ (rows.length : Int) < 0 := Int.not_lt.2 (Int.natCast_nonneg _)
  simp only [decompress, hlines, hread, regValue, hload, readErr_eq hfrst, hferr, ne_eq, not_true_eq_false, if_false,
    hcount, if_neg hnat, Int.toNat_natCast, readErr_eq hrst', herr', hbytes, hsyms]

/-- The host decompressor on bytes that begin with a count, a `PrefixFree` table and the codes of so many of its rows
emits the rows' symbols, from any state (R221, R229). -/
theorem decompress_emits {t rows : List Row} {out : List Byte} {d : State} (hpos : 1 ≤ t.length) (hle : t.length ≤ 256)
    (ht : ∀ r ∈ t, r.len ≠ 0 ∧ r.code.length = r.len.toNat) (hfree : PrefixFree t) (hrows : rows ⊆ t)
    (hlen : rows.length < 2 ^ 31) (hrst : d.rstN = true) (hfit : out.length ≤ d.cfg.inCapBytes)
    (hholds : (d.resetRegs.withIbuf out).Holds 0
      (bitsOf 32 (BitVec.ofNat 32 rows.length) ++ (tableBits t ++ rows.flatMap Row.code))) :
    decompress out d = .emitted (rows.map Row.sym) := by
  obtain ⟨hcount, hrest⟩ := hholds.append
  rw [length_bitsOf] at hrest
  obtain ⟨a, hread⟩ := afterLines_readCount hrst hfit hcount
  exact decompress_of_afterLines hpos hle ht hfree hrows (toInt_ofNat_of_lt hlen) hread hrst rfl hrest

/-! ## The round trip -/

/-- The reference table of a non-empty byte sequence can be loaded. -/
theorem referenceTable_loadable {b : List Byte} (hb : b ≠ []) : Loadable (referenceTable b) := by
  obtain ⟨-, -, hpos, hle, hcode, -⟩ := referenceTableIsPrefixFree b hb
  exact ⟨List.ne_nil_of_length_pos hpos, hle, fun r hr => (hcode r hr).1, fun r hr => (hcode r hr).2⟩

/-- The rows of the reference table, loaded, are `PrefixFree` (R225). -/
theorem referenceTable_prefixFree {b : List Byte} (hb : b ≠ []) : PrefixFree ((referenceTable b).map loadedRow) := by
  obtain ⟨-, -, -, -, -, hfree⟩ := referenceTableIsPrefixFree b hb
  exact List.pairwise_map.2 hfree

theorem find?_map_loadedRow (rows : List (Byte × Bits)) (x : Byte) :
    (rows.map loadedRow).find? (fun r => r.sym == x) = (rows.find? fun r => r.1 == x).map loadedRow :=
  List.find?_map ..

/-- A payload has, for each byte, as many bits as the code found for it (R105). -/
theorem length_payloadBits (rows : List (Byte × Bits)) (b : List Byte) :
    (payloadBits (rows.map loadedRow) b).length =
      (b.map fun x => ((rows.find? fun r => r.1 == x).map fun r => r.2.length).getD 0).sum := by
  induction b with
  | nil => rfl
  | cons x b ih =>
    have hfind := find?_map_loadedRow rows x
    rw [List.map_cons, List.sum_cons, ← ih]
    cases hx : rows.find? fun r => r.1 == x with
    | none =>
      rw [hx, Option.map_none] at hfind
      rw [payloadBits, symRows_cons_none hfind]
      exact (Nat.zero_add _).symm
    | some r =>
      rw [hx, Option.map_some] at hfind
      rw [payloadBits_cons hfind, List.length_append]
      rfl

/-- A loaded row is serialized to its symbol, its length and its code (R104). -/
theorem length_rowBits_loadedRow (r : Byte × Bits) : (rowBits (loadedRow r)).length = 16 + r.2.length := by
  rw [rowBits, List.length_append, List.length_append, length_bitsOf, length_bitsOf, loadedRow]

/-- The stream has the length of its parts (R101 to R105). -/
theorem length_streamOf (rows : List (Byte × Bits)) (n : Word) (b : List Byte) :
    (streamOf (rows.map loadedRow) n b).length = streamBits rows b := by
  have hrows : ((rows.map loadedRow).flatMap rowBits).length = (rows.map fun r => 16 + r.2.length).sum := by
    rw [List.length_flatMap, List.map_map]
    exact congrArg List.sum (List.map_congr_left fun r _ => length_rowBits_loadedRow r)
  rw [streamOf, List.length_append, List.length_append, length_bitsOf, length_payloadBits, tableBits,
    List.length_append, length_bitsOf, hrows, streamBits]
  omega

/-- A payload has at least one bit for each byte. -/
theorem Loadable.length_le_length_payloadBits {rows : List (Byte × Bits)} (h : Loadable rows) {b : List Byte}
    (hb : ∀ x ∈ b, x ∈ (rows.map loadedRow).map Row.sym) : b.length ≤ (payloadBits (rows.map loadedRow) b).length := by
  have hone : ∀ k ∈ (symRows (rows.map loadedRow) b).map fun r => r.code.length, 1 ≤ k := by
    intro k hk
    obtain ⟨r, hr, rfl⟩ := List.mem_map.1 hk
    obtain ⟨q, hq, rfl⟩ := List.mem_map.1 (symRows_subset _ _ hr)
    exact h.code_pos q hq
  have hlen := List.length_le_sum_of_one_le _ hone
  rwa [List.length_map, ← List.length_flatMap, ← List.length_map (f := Row.sym), map_sym_symRows hb] at hlen

/-- A text has fewer bytes than its stream has bits. -/
theorem Loadable.length_lt_streamBits {rows : List (Byte × Bits)} (h : Loadable rows) {b : List Byte}
    (hb : ∀ x ∈ b, x ∈ (rows.map loadedRow).map Row.sym) : b.length < streamBits rows b := by
  have hpayload := h.length_le_length_payloadBits hb
  rw [length_payloadBits] at hpayload
  rw [streamBits]
  omega

/-- No legal buffer has more than 2^31 bits (R7). -/
theorem outCapBits_le_of_wf {c : Config} (hc : c.wf = true) : c.outCapBits ≤ 2 ^ 31 := by
  simp only [Config.wf, Config.maxCapBytes, Bool.and_eq_true, decide_eq_true_eq] at hc
  obtain ⟨⟨⟨-, hmax⟩, -⟩, -⟩ := hc
  rw [Config.outCapBits]
  omega

/-- Settles O57: the compressor emits the packed stream, the decompressor's reader then holds it, and the rows whose
codes are the payload carry the bytes of the text. -/
theorem compressThenDecompressGivesTheText : Obligations.CompressThenDecompressGivesTheText := by
  intro b s d hb _ hs _ hsrst hdrst hout hin
  obtain ⟨hmem, -⟩ := referenceTableIsPrefixFree b hb
  have hrows := referenceTable_loadable hb
  have hsyms : ∀ x ∈ b, x ∈ ((referenceTable b).map loadedRow).map Row.sym := fun x hx => by
    rw [List.map_map]
    exact (hmem x).2 hx
  have htext := map_sym_symRows hsyms
  have hlen : (symRows ((referenceTable b).map loadedRow) b).length = b.length := by
    rw [← List.length_map (f := Row.sym), htext]
  have hcap := outCapBits_le_of_wf hs
  have hcount : b.length < 2 ^ 31 := (hrows.length_lt_streamBits hsyms).trans_le (hout.trans hcap)
  have hstream := length_streamOf (referenceTable b) (BitVec.ofNat 32 b.length) b
  obtain ⟨e, hobuf, hemit⟩ := compress_emits hrows (fun x hx => (hmem x).2 hx) hsrst (hcap.trans_lt (by decide))
    (hstream.trans_le hout)
  have hheld := holds_packedBytes (d := d.resetRegs.withIbuf e.packedBytes) (s := e) rfl
  have hfit : e.packedBytes.length ≤ d.cfg.inCapBytes := by
    rw [length_packedBytes, State.wbits, hobuf, hstream, ceil8]
    omega
  rw [hobuf, streamOf, payloadBits, ← hlen] at hheld
  have hdecoded := decompress_emits hrows.length_loaded.1 hrows.length_loaded.2 hrows.loadedRow_wf
    (referenceTable_prefixFree hb) (symRows_subset _ b) (hlen.trans_lt hcount) hdrst hfit hheld
  exact ⟨e.packedBytes, hemit, htext ▸ hdecoded⟩

end Sys2Proof.Machine
end

section
/-! PROOFS of the exceptions and reset families (60_exceptions.md R250 to R260, 70_reset_and_hazards.md R280): how a command
fails, what leaves the blocked state, that the error record stays legal, and the machine held in reset. -/

namespace Sys2Proof.Machine

/-! ## A failing command -/

/-- Settles O5, by the three things a command can do: SRESET clears the error, and a raised one is the command's own. -/
theorem everyCommandCompletesOrFailsOnce : Obligations.EveryCommandCompletesOrFailsOnce := by
  intro i s hs
  obtain ⟨t, ht, hdid⟩ := exec_cases i s
  refine ⟨t, ht, ?_⟩
  rcases hdid with ⟨herr, -⟩ | ⟨-, rfl⟩ | ⟨e, rfl, -⟩
  · exact .inl (herr.trans hs)
  · exact .inl rfl
  · exact .inr ⟨e, rfl, rfl⟩

/-- A legal word has its command's OP (R91). -/
theorem opcode_of_decode {w : Word} {i : Instr} (h : decode w = .ok i) : i.opcode = opField w := by
  obtain ⟨-, henc⟩ := encodeOfDecodeIsTheWord w i h
  rw [← henc, opField_encode]

/-- Settles O6: a legal word fails as its command does, and an illegal one raises E_ILLEGAL. -/
theorem failingCommandIsPrecise : Obligations.FailingCommandIsPrecise := by
  intro w s t hs h ht
  by_cases hdec : ∃ i, decode w = .ok i
  · obtain ⟨i, hi⟩ := hdec
    obtain ⟨e, he⟩ := exec_failing hs ((dispatchWord_legal hs hi).symm.trans h) ht
    exact ⟨e, by rw [he, opcode_of_decode hi]; rfl⟩
  · rw [dispatchWord_illegal hdec, if_pos hs] at h
    cases h
    exact ⟨.illegal, rfl⟩

/-! ## The dispatch of a CMD write -/

/-- A selected row is performed, or raises E_ILLEGAL where its chunk count is above 32 (R253). -/
theorem dispatchWord_of_selects {r : OpRow} {w : Word} {s : State} (hs : s.err = 0) (hr : r ∈ opcodeMap)
    (h : r.selects w = true) : dispatchWord w s =
      if opField w ∈ chunkOps ∧ 32 < (nField w).toNat then .next (s.raise .illegal (opField w))
      else exec (r.build (nField w) (sField w)) s := by
  split_ifs with hcount
  · obtain ⟨hchunk, hlarge⟩ := hcount
    have hdec : ¬ ∃ i, decode w = .ok i := fun hok => by
      obtain ⟨-, -, -, -, hle⟩ := (decodes_iff w).1 hok
      exact absurd (hle hchunk) (not_le.2 hlarge)
    rw [dispatchWord_illegal hdec, if_pos hs]
  · have hwf : (r.build (nField w) (sField w)).wf = true := by
      rw [row_build_wf_iff hr, ← opField_of_selects hr h]
      exact fun hchunk => not_lt.1 fun hlarge => hcount ⟨hchunk, hlarge⟩
    exact dispatchWord_legal hs (decode_of_selects hr h hwf)

/-- Settles O13: the blocked state, a word that selects a row, and a word that selects none. -/
theorem dispatchOfACommandWrite : Obligations.DispatchOfACommandWrite := by
  intro s w hrst
  have hcmd : hostEvent (.write 0x00 4 w) s = dispatchWord w s := hostEvent_cmd w s hrst
  rw [hcmd]
  refine ⟨fun hs => ?_, fun hs r hr hmask => ?_, fun hs hnone => ?_⟩
  · rw [dispatchWord, if_neg hs]
    rfl
  · have hops : opField w ∈ [0x21, 0x12, 0x32, 0x33] ↔ opField w ∈ chunkOps := (List.Perm.swap _ _ _).mem_iff
    simp only [hops]
    exact dispatchWord_of_selects hs hr (beq_iff_eq.2 hmask)
  · have hdec : ¬ ∃ i, decode w = .ok i := by
      rintro ⟨i, hi⟩
      obtain ⟨r, hr, hsel, -, -⟩ := decode_eq_ok_iff.1 hi
      exact hnone r hr (beq_iff_eq.1 hsel)
    rw [dispatchWord_illegal hdec, if_pos hs]
    rfl

/-! ## The blocked state -/

/-- Settles O4: each host access in turn. -/
theorem blockedStateIgnoresCommands : Obligations.BlockedStateIgnoresCommands := by
  intro s hs hrst
  refine ⟨fun w _ hsreset => ?_, ?_, ⟨s.resetRegs, ?_, resetRegs_atReset s⟩, fun r => hostEvent_read r s hrst,
    fun v => hostEvent_arg v s hrst⟩
  · exact (hostEvent_cmd w s hrst).trans (dispatchWord_blocked hs hsreset)
  · exact (hostEvent_cmd nopWord s hrst).trans (dispatchWord_nopWord s)
  · exact (hostEvent_cmd sresetWord s hrst).trans (dispatchWord_sresetWord s)

/-- An access that reaches a register is a whole word at the register's offset (R70, R73). -/
theorem eq_offset_of_accessReg {off size : Nat} {r : Reg} (h : accessReg off size = .ok r) :
    off = r.offset ∧ size = 4 := by
  have hoffset : ∀ k < registerMap.length, (registerMap[k]?.map Reg.offset) = some (4 * k) := by decide
  unfold accessReg at h
  split_ifs at h with hsize halign
  split at h <;> cases h
  rename_i hreg
  obtain ⟨hlt, -⟩ := List.getElem?_eq_some_iff.1 hreg
  have hr : r.offset = 4 * (off / 4) := by simpa [hreg] using hoffset _ hlt
  exact ⟨by omega, by omega⟩

/-- Only a write of CMD reaches the error record (R72). -/
theorem writeReg_keeps_error_record {r : Reg} {v : Word} {s t : State} (h : writeReg r v s = .next t)
    (hcmd : r ≠ .cmd) : t.err = s.err ∧ t.errOp = s.errOp := by
  by_cases harg : r = .arg
  · subst harg
    unfold writeReg at h
    split at h <;> cases h <;> exact ⟨rfl, rfl⟩
  · rw [writeReg_ignored hcmd harg] at h
    cases h
    exact ⟨rfl, rfl⟩

/-- While blocked, a register write keeps the error record or is a CMD write of SRESET's word out of reset (R255). -/
theorem writeReg_blocked {r : Reg} {v : Word} {s t : State} (hs : s.err ≠ 0) (h : writeReg r v s = .next t) :
    (t.err = s.err ∧ t.errOp = s.errOp) ∨ (t = s.resetRegs ∧ s.rstN = true ∧ r = .cmd ∧ v = sresetWord) := by
  by_cases hcmd : r = .cmd
  · rcases writeReg_cases h with rfl | ⟨hrst, rfl | hw⟩
    · exact .inl ⟨rfl, rfl⟩
    · exact .inl ⟨rfl, rfl⟩
    · by_cases hv : v = sresetWord
      · rw [hv, dispatchWord_sresetWord] at hw
        cases hw
        exact .inr ⟨rfl, hrst, hcmd, hv⟩
      · rw [dispatchWord_blocked hs hv] at hw
        cases hw
        exact .inl ⟨rfl, rfl⟩
  · exact .inl (writeReg_keeps_error_record h hcmd)

/-- While blocked, a host event keeps the error record or is a reset (R259, R260). -/
theorem hostEvent_blocked {e : HostEvent} {s t : State} (hs : s.err ≠ 0) (h : hostEvent e s = .next t) :
    (t.err = s.err ∧ t.errOp = s.errOp) ∨
    (t.AtReset ∧ (e = .rst false ∨ s.rstN = true ∧ e = cmdEvent sresetWord)) := by
  cases e with
  | read off size =>
    simp only [hostEvent] at h
    split at h <;> cases h
    exact .inl ⟨rfl, rfl⟩
  | write off size v =>
    cases hreg : accessReg off size with
    | error r => rw [hostEvent_write_refused hreg] at h; cases h
    | ok r =>
      rw [hostEvent_write_reaches hreg] at h
      obtain ⟨rfl, rfl⟩ := eq_offset_of_accessReg hreg
      refine (writeReg_blocked hs h).imp_right ?_
      rintro ⟨rfl, hrst, rfl, rfl⟩
      exact ⟨resetRegs_atReset s, .inr ⟨hrst, rfl⟩⟩
  | rst level =>
    cases h
    cases level with
    | true => exact .inl ⟨rfl, rfl⟩
    | false => exact .inr ⟨resetRegs_atReset s, .inl rfl⟩

/-- Settles O7: a step idles or performs the oldest host event. -/
theorem onlyResetLeavesTheBlockedState : Obligations.OnlyResetLeavesTheBlockedState := by
  intro s t hs h
  cases hin : s.inputs with
  | nil =>
    rw [step_idle hin] at h
    cases h
    exact .inl ⟨rfl, rfl⟩
  | cons e es =>
    rw [step_event hin] at h
    refine (hostEvent_blocked (s := s.withInputs es) hs h).imp_right ?_
    rintro ⟨hreset, rfl | ⟨hrst, rfl⟩⟩
    · exact ⟨hreset, es, .inl rfl⟩
    · exact ⟨hreset, es, .inr ⟨hrst, rfl⟩⟩

/-! ## The error record -/

/-- STATUS.ERR and ERR_OP are legal together (R25, R251). -/
abbrev State.ErrorLegal (s : State) : Prop := errorRecordOk s.err s.errOp = true

/-- An error that the OP's row lets it raise is a legal record (R251). -/
theorem raise_errorLegal {e : HcbError} {op : Byte} (s : State) (h : raisedBy e op = true) :
    (s.raise e op).ErrorLegal := by
  have hmem : e ∈ allErrors := by cases e <;> decide
  have hrow : (allErrors.any fun e' => e.code == e'.code && raisedBy e' op) = true :=
    List.any_eq_true.2 ⟨e, hmem, by simp [h]⟩
  exact Bool.or_eq_true_iff.2 (.inr hrow)

theorem dispatchWord_keeps_errorLegal {w : Word} {s t : State} (hs : s.ErrorLegal) (h : dispatchWord w s = .next t) :
    t.ErrorLegal := by
  rcases dispatchWord_cases h with rfl | ⟨i, hi⟩ | rfl
  · exact hs
  · rcases exec_did hi with ⟨herr, hop, -⟩ | ⟨-, rfl⟩ | ⟨e, rfl, hraised⟩
    · rwa [State.ErrorLegal, herr, hop]
    · rfl
    · exact raise_errorLegal s hraised
  · exact raise_errorLegal s rfl

theorem hostEvent_keeps_errorLegal {e : HostEvent} {s t : State} (hs : s.ErrorLegal) (h : hostEvent e s = .next t) :
    t.ErrorLegal := by
  rcases hostEvent_cases h with ⟨v, rfl⟩ | ⟨r, v, hw⟩ | ⟨level, rfl⟩
  · exact hs
  · rcases writeReg_cases hw with rfl | ⟨-, rfl | hcmd⟩
    · exact hs
    · exact hs
    · exact dispatchWord_keeps_errorLegal hs hcmd
  · cases level with
    | true => exact hs
    | false => rfl

/-- Settles O8: the codes and reset by evaluation, and a step as one host event. -/
theorem stepKeepsTheErrorRecordLegal : Obligations.StepKeepsTheErrorRecordLegal := by
  refine ⟨rfl, rfl, fun s t hs h => ?_⟩
  rcases step_cases h with rfl | ⟨e, es, he⟩
  · exact hs
  · exact hostEvent_keeps_errorLegal (s := s.withInputs es) hs he

/-! ## The reset input -/

/-- While `rst_n` is low a register write has no effect (R280). -/
theorem writeReg_held {s : State} (hrst : s.rstN = false) (r : Reg) (v : Word) : writeReg r v s = .next s := by
  simp [writeReg, hrst]

/-- While `rst_n` is low a register reads as 0 (R280). -/
theorem readReg_held {s : State} (hrst : s.rstN = false) (r : Reg) : readReg r s = 0 := by simp [readReg, hrst]

/-- Settles O19: the effects of `rst_n` and SRESET are the model's updates written out, and a held access reaches a
register that ignores it. -/
theorem resetInputHoldsTheMachine : Obligations.ResetInputHoldsTheMachine := by
  refine ⟨fun _ => rfl, fun _ => rfl, fun _ => rfl, fun s off v hrst halign hlt => ?_⟩
  obtain ⟨r, hr⟩ := accessReg_ok halign hlt
  refine ⟨(hostEvent_write_reaches hr v s).trans (writeReg_held hrst r v), ?_⟩
  rw [hostEvent_read_reaches hr, readReg_held hrst]
  rfl

end Sys2Proof.Machine
end
